-- ==== Sys2Proof/Word.lean ====
section
/-! DEFINITION. The block's plainest data: characters, strings, the FieldTriple and exact signed
rationals (spec/00_scope.md R14, R15, R17; spec/40_fields.md R65; spec/42_arithmetic.md R75). -/

namespace Sys2Proof

/-- A character (R15, R23): the block tells `'0'`, `'1'` and any other character apart. `other n` is
some other character; `n` only keeps different other characters different, it is no wire code
(entry 8). -/
inductive Ch where
  | zero
  | one
  | other (n : Nat)
deriving DecidableEq, Repr

/-- A finite character string, its leftmost character (position 0) first (R15). -/
abbrev Str := List Ch

/-- The decomposed `(sign, biasedExponent, fractionBits)` (R65). The exponent and fraction fields are
unsigned numbers; all arithmetic on them is exact (R14). -/
structure FieldTriple where
  sign : Bool
  exp  : Nat
  frac : Nat
deriving DecidableEq, Repr

/-- The exact rational `(−1)^negative × num / den` (R14, R75, R90; entry 10). -/
structure ExactValue where
  negative : Bool
  num      : Nat
  den      : Nat
deriving DecidableEq, Repr

end Sys2Proof
end

