-- ==== Sys2Proof/Config.lean ====
section
/-! DEFINITION. What the integrator fixes before the first transaction: the three parameters of
spec/00_scope.md R10, R11 and R12. No other parameter exists (R13). No free value is needed: no rule
lets the block go on with a value it does not state. -/

namespace Sys2Proof

/-- `ENDIANNESS ∈ {little, big}` (R11, R32). A third ordering cannot be configured (R72). -/
inductive Endianness where
  | little
  | big
deriving DecidableEq, Repr

/-- The parameter `FRAC_DIGITS` (R10): the spec's value `FRAC_EXACT(p)`, or the one named
alternative `W(p)`. The numbers they stand for are `FracDigits.count`. -/
inductive FracDigits where
  | exact
  | width
deriving DecidableEq, Repr

/-- The configuration of one instance. No transaction writes it (R32). -/
structure Config where
  endianness : Endianness
  strInMax   : Nat
  fracDigits : FracDigits
deriving DecidableEq, Repr

/-- The configuration the model's reset state carries: `FRAC_EXACT` is the spec's value (R10);
`little` (entry 2) and 65536 (entry 3) are DESIGN CHOICES, which the spec leaves `OPEN`. -/
def Config.atReset : Config where
  endianness := .little
  strInMax   := 65536
  fracDigits := .exact

end Sys2Proof
end

