-- ==== Sys2Proof/Syntax.lean ====
section
/-! DEFINITION. The vocabulary of a transaction: precisions, operations, the twelve commands of
spec/30_encoding.md R56, the fields of a command word (R50) and the status codes' names
(spec/60_exceptions.md R91). -/

namespace Sys2Proof

/-- The precisions binary32 (`S`) and binary64 (`D`) (R2, R7, R52). -/
inductive Precision where
  | s
  | d
deriving DecidableEq, Repr

/-- The six operations of R51. -/
inductive Op where
  | encd
  | decd
  | enca
  | deca
  | xtrt
  | rcon
deriving DecidableEq, Repr

/-- The twelve legal commands, one per row of the opcode table (R56). No operand stands in a command
word (R55), so no constructor has an argument. -/
inductive Instr where
  | encdS | decdS | encaS | decaS | xtrtS | rconS
  | encdD | decdD | encaD | decaD | xtrtD | rconD
deriving DecidableEq, Repr

/-- The command of an operation and a precision. -/
def Instr.ofOp : Op → Precision → Instr
  | .encd, .s => .encdS
  | .decd, .s => .decdS
  | .enca, .s => .encaS
  | .deca, .s => .decaS
  | .xtrt, .s => .xtrtS
  | .rcon, .s => .rconS
  | .encd, .d => .encdD
  | .decd, .d => .decdD
  | .enca, .d => .encaD
  | .deca, .d => .decaD
  | .xtrt, .d => .xtrtD
  | .rcon, .d => .rconD

/-- The operation a command selects (R51). -/
def Instr.op : Instr → Op
  | .encdS | .encdD => .encd
  | .decdS | .decdD => .decd
  | .encaS | .encaD => .enca
  | .decaS | .decaD => .deca
  | .xtrtS | .xtrtD => .xtrt
  | .rconS | .rconD => .rcon

/-- The precision a command selects (R9, R52). -/
def Instr.prec : Instr → Precision
  | .encdS | .decdS | .encaS | .decaS | .xtrtS | .rconS => .s
  | .encdD | .decdD | .encaD | .decaD | .xtrtD | .rconD => .d

/-- The three fields of a command word, whatever they hold (R50). -/
structure CommandFields where
  rsv  : BitVec 3
  prec : BitVec 2
  op   : BitVec 3
deriving DecidableEq, Repr

/-- The outcomes of a transaction by name (R91). Their 3-bit codes are `Status.code`. -/
inductive Status where
  | ok
  | illegal
  | type
  | malformed
  | unsupported
  | range
deriving DecidableEq, Repr

/-- The classes of a pattern or FieldTriple (R67). -/
inductive PatternClass where
  | normal
  | zero
  | subnormalPattern
  | specialPattern
deriving DecidableEq, Repr

/-- The six result ports, in the order of their `VALID` bits (R31). -/
inductive ResultPort where
  | valOut
  | strOut
  | signOut
  | expOut
  | fracOut
  | sigOut
deriving DecidableEq, Repr

/-- The input ports of one transaction as the host presents them (R18, R21, R22, R23). -/
structure Transaction where
  cmd   : BitVec 8
  valIn : BitVec 64
  strIn : Str
deriving DecidableEq, Repr

/-- The operand of a transaction as the notation of R59 writes it: a pattern for `VAL_IN`, a string
for `STR_IN`, or a result port of the previous transaction that the host copies (R111 (3)). -/
inductive HostOperand where
  | pattern (x : BitVec 64)
  | string (t : Str)
  | previousStrOut
  | previousValOut
deriving DecidableEq, Repr

/-- One line of a host program (R59, R112): the command word, legal or reserved, and its operand. -/
structure HostCommand where
  cmd     : BitVec 8
  operand : HostOperand
deriving DecidableEq, Repr

end Sys2Proof
end

