-- ==== Sys2Proof/WellFormed.lean ====
section
/-! DEFINITION. What may be presented to the block: legal command fields (spec/30_encoding.md R51,
R52, R53), a legal configuration and a string the port can hold (spec/00_scope.md R12). -/

namespace Sys2Proof

/-- Every command is well formed: it has no operand that could be wrong (R55, R58). -/
def Instr.wf (_ : Instr) : Bool := true

/-- The fields of a legal command word: `RSV = 000` (R53), `OP` not `110` or `111` (R51), `PREC` not
`10` or `11` (R52). -/
def CommandFields.wf (f : CommandFields) : Bool :=
  f.rsv == 0b000#3 && f.op != 0b110#3 && f.op != 0b111#3 && f.prec != 0b10#2 && f.prec != 0b11#2

/-- `STR_IN_MAX ≥ 64` is required (R12). -/
def Config.wf (c : Config) : Bool := decide (64 ≤ c.strInMax)

/-- A string longer than `STR_IN_MAX` cannot be presented (R12). -/
def Transaction.wf (c : Config) (t : Transaction) : Bool := decide (t.strIn.length ≤ c.strInMax)

end Sys2Proof
end

