-- ==== Sys2Proof/Decode.lean ====
section
/-! DEFINITION. The command decoder, total on all 256 words (spec/30_encoding.md R54), and after it the
encoder, written from the field tables of R50, R51 and R52. -/

namespace Sys2Proof

/-- The fields of a command word: `OP` bits 2:0, `PREC` bits 4:3, `RSV` bits 7:5 (R50). -/
def commandFields (w : BitVec 8) : CommandFields where
  rsv  := w.extractLsb' 5 3
  prec := w.extractLsb' 3 2
  op   := w.extractLsb' 0 3

/-- The operation an `OP` field names; `110` and `111` are reserved (R51). -/
def opOfField (f : BitVec 3) : Option Op :=
  if f = 0b000#3 then some .encd
  else if f = 0b001#3 then some .decd
  else if f = 0b010#3 then some .enca
  else if f = 0b011#3 then some .deca
  else if f = 0b100#3 then some .xtrt
  else if f = 0b101#3 then some .rcon
  else none

/-- The precision a `PREC` field names; `10` and `11` name no floating-point type (R52). -/
def precOfField (f : BitVec 2) : Option Precision :=
  if f = 0b00#2 then some .s
  else if f = 0b01#2 then some .d
  else none

/-- Decoding of the command word (R54): `ILLEGAL` is checked before `TYPE` (R97). A word that does not
decode is rejected by the name of the status it raises. -/
def decodeCmd (w : BitVec 8) : Except Status Instr :=
  let f := commandFields w
  if f.rsv ≠ 0b000#3 then .error .illegal
  else
    match opOfField f.op with
    | none => .error .illegal
    | some op =>
      match precOfField f.prec with
      | none => .error .type
      | some p => .ok (Instr.ofOp op p)

/-- The instruction the decoder reads from a table row's bits. A command is one 8-bit word (R50, R58):
bits of `w` above `nbits` are 0, and a word that does not fit 8 bits is no command. -/
def decodeTableWord (nbits w : Nat) : Option Instr :=
  let v := w % 2 ^ nbits
  if v < 256 then
    match decodeCmd (BitVec.ofNat 8 v) with
    | .ok i => some i
    | .error _ => none
  else none

/-- The `OP` field of an operation (R51). -/
def opField : Op → BitVec 3
  | .encd => 0b000#3
  | .decd => 0b001#3
  | .enca => 0b010#3
  | .deca => 0b011#3
  | .xtrt => 0b100#3
  | .rcon => 0b101#3

/-- The `PREC` field of a precision (R52). -/
def precField : Precision → BitVec 2
  | .s => 0b00#2
  | .d => 0b01#2

/-- The command word `{RSV, PREC, OP}` with `RSV = 000` (R50, R53). -/
def encode (i : Instr) : BitVec 8 := 0b000#3 ++ precField i.prec ++ opField i.op

end Sys2Proof
end

