-- ==== Sys2Proof/Machine/State.lean ====
section
/-! DEFINITION. The state of the block: the ports of one transaction and the configuration
(spec/10_state.md R36), the reasons a step can stop, and the state after reset
(spec/70_reset_and_hazards.md R109). -/

namespace Sys2Proof.Machine

/-- Every piece of state of R36. An output port that holds no value is `none`: this is the spec's own
state of the port (R31, R36, R109; entry 5). -/
structure State where
  /-- `CMD`, the command word (R21). -/
  cmd     : BitVec 8
  /-- `VAL_IN`, an IEEE-754 pattern (R22). -/
  valIn   : BitVec 64
  /-- `STR_IN`, a string of any characters (R23). -/
  strIn   : Str
  /-- `VAL_OUT` (R24). -/
  valOut  : Option (BitVec 64)
  /-- `STR_OUT` (R25). -/
  strOut  : Option Str
  /-- `SIGN_OUT` (R26). -/
  signOut : Option (BitVec 1)
  /-- `EXP_OUT` (R27). -/
  expOut  : Option (BitVec 11)
  /-- `FRAC_OUT` (R28). -/
  fracOut : Option (BitVec 52)
  /-- `SIG_OUT` (R29). -/
  sigOut  : Option (BitVec 53)
  /-- `STATUS` (R30). -/
  status  : Option (BitVec 3)
  /-- `VALID`, one bit per result port (R31). -/
  valid   : BitVec 6
  /-- `ENDIANNESS` (R32) and the parameters `STR_IN_MAX` (R12) and `FRAC_DIGITS` (R10); no
  transaction writes them (entry 4). -/
  config  : Config
deriving DecidableEq, Repr

/-- The output ports of a transaction, as the host sees them when it ends (R112). -/
structure Outputs where
  valOut  : Option (BitVec 64)
  strOut  : Option Str
  signOut : Option (BitVec 1)
  expOut  : Option (BitVec 11)
  fracOut : Option (BitVec 52)
  sigOut  : Option (BitVec 53)
  status  : Option (BitVec 3)
  valid   : BitVec 6
deriving DecidableEq, Repr

/-- Why the host's use of the ports stops. No transaction faults: what the block itself reports is a
status, in a next state (R98). -/
inductive Fault where
  /-- Raised by the host's read of a result port whose `VALID` bit is 0, which "a model must treat" as
  a fault (R31, R111). Safe: the wires carry a value no rule fixes. -/
  | noValue (port : ResultPort)
  /-- Raised by the host's read of `STATUS` before the first transaction after reset (R36, R109).
  Safe: the same reason. -/
  | noStatus
deriving DecidableEq, Repr

/-- Why a step has no meaning. -/
inductive Refusal where
  /-- Raised by an arm of `exec` whose instruction has no meaning yet. Safe: nothing is claimed of it.
  No arm of this model raises it. -/
  | notModelled (mnemonic : String)
  /-- Raised by `step` when `STR_IN` holds a string longer than `STR_IN_MAX`, which "cannot be
  presented (it is no transaction)" (R12). Safe: there is no such transaction to claim anything of
  (entry 9). -/
  | stringTooLong
deriving DecidableEq, Repr

/-- The machine right after reset (R36, R109): every output port holds no value and `VALID` is 0. The
input ports (entry 1) and the configuration (entries 2, 3) hold values the spec does not give. -/
def State.reset : State where
  cmd     := 0#8
  valIn   := 0#64
  strIn   := []
  valOut  := none
  strOut  := none
  signOut := none
  expOut  := none
  fracOut := none
  sigOut  := none
  status  := none
  valid   := 0b000000#6
  config  := Config.atReset

end Sys2Proof.Machine
end

