-- ==== Sys2Proof/Machine/Operands.lean ====
section
/-! DEFINITION. Operands and the pieces both strategies share: the precision table
(spec/00_scope.md R7, R8), string primitives (R15), operand assembly (spec/30_encoding.md R55), and the
layout, fitting, alphabet check, field extractor, reconstructor and classification of
spec/40_fields.md R61 to R67. -/

namespace Sys2Proof

/-- `EB(p)` (R7). -/
def Precision.expBits : Precision → Nat
  | .s => 8
  | .d => 11

/-- `FB(p)` (R7). -/
def Precision.fracBits : Precision → Nat
  | .s => 23
  | .d => 52

/-- `W(p)` (R7). -/
def Precision.width : Precision → Nat
  | .s => 32
  | .d => 64

/-- `BIAS(p) = 2^(EB − 1) − 1` (R7). -/
def Precision.bias (p : Precision) : Nat := 2 ^ (p.expBits - 1) - 1

/-- `EMAX_FIELD(p) = 2^EB − 1`, the all-one exponent field (R7). -/
def Precision.expMax (p : Precision) : Nat := 2 ^ p.expBits - 1

/-- `FRAC_EXACT(p) = BIAS + FB − 1` (R8). -/
def Precision.fracExact (p : Precision) : Nat := p.bias + p.fracBits - 1

/-- `FRAC_DIGITS(p)`, the number of fractional digits the arithmetic encoder generates (R10). -/
def FracDigits.count : FracDigits → Precision → Nat
  | .exact, p => p.fracExact
  | .width, p => p.width

/-- The character of a bit: `'1'` for 1, `'0'` for 0 (R15). -/
def Ch.ofBool (b : Bool) : Ch := if b then .one else .zero

/-- The number a character denotes in `uval` (R15). -/
def Ch.digit : Ch → Nat
  | .one => 1
  | .zero | .other _ => 0

/-- Is the character in the alphabet `{'0','1'}` (R64)? -/
def Ch.isBit : Ch → Bool
  | .zero | .one => true
  | .other _ => false

namespace Machine

/-- `bin_N(n)`: `n` in binary as `N` characters, most significant digit first (R15). -/
def bin : Nat → Nat → Str
  | 0, _ => []
  | N + 1, n => Ch.ofBool (n.testBit N) :: bin N n

/-- `uval(t)`: the unsigned number a string denotes, `t[0]` most significant (R15). -/
def uval (t : Str) : Nat := t.foldl (fun n c => 2 * n + c.digit) 0

/-- `zeros(N)` (R15). -/
def zeros (N : Nat) : Str := List.replicate N Ch.zero

/-- `t[i .. j)` (R15). -/
def slice (t : Str) (i j : Nat) : Str := (t.take j).drop i

/-- `fit_W(t)`: the first `W` characters, or `t` padded with `'0'` at its end (R63). -/
def fit (W : Nat) (t : Str) : Str :=
  if W ≤ t.length then slice t 0 W else t ++ zeros (W - t.length)

/-- The alphabet check: every character, at every position, is `'0'` or `'1'` (R64). -/
def alphabetOk (t : Str) : Bool := t.all Ch.isBit

/-- The pattern on `VAL_IN`: bits 31:0 at `S`, bits 63:0 at `D` (R22, R55). -/
def patternOperand (p : Precision) (v : BitVec 64) : BitVec p.width := v.extractLsb' 0 p.width

/-- `zext_64(y)`, the form in which a pattern is written to `VAL_OUT` (R24). -/
def zext64 {W : Nat} (y : BitVec W) : BitVec 64 := y.setWidth 64

/-- The FieldTriple of a pattern: `s = x[W−1]`, `e = x[W−2 : FB]`, `F = x[FB−1 : 0]` (R61). -/
def patternFields (p : Precision) (x : BitVec p.width) : FieldTriple where
  sign := x.getLsbD (p.width - 1)
  exp  := (x.extractLsb' p.fracBits p.expBits).toNat
  frac := (x.extractLsb' 0 p.fracBits).toNat

/-- The pattern `{s, e, F}` (R61). -/
def fieldsPattern (p : Precision) (f : FieldTriple) : BitVec p.width :=
  BitVec.ofNat p.width (f.sign.toNat * 2 ^ (p.width - 1) + f.exp * 2 ^ p.fracBits + f.frac)

/-- The field extractor `fields_p(u)` (R65). -/
def stringFields (p : Precision) (u : Str) : FieldTriple where
  sign := uval (slice u 0 1) == 1
  exp  := uval (slice u 1 (1 + p.expBits))
  frac := uval (slice u (1 + p.expBits) p.width)

/-- `2^FB + F`, the normalized significand `1 + f` scaled by `2^FB` (R66). The implicit 1 is added
whatever the exponent field holds. -/
def significand (p : Precision) (frac : Nat) : Nat := 2 ^ p.fracBits + frac

/-- The class of a FieldTriple (R67). -/
def classify (p : Precision) (f : FieldTriple) : PatternClass :=
  if f.exp = 0 then
    if f.frac = 0 then .zero else .subnormalPattern
  else if f.exp = p.expMax then .specialPattern
  else .normal

end Machine

end Sys2Proof
end

