-- ==== Sys2Proof/Machine/Flags.lean ====
section
/-! DEFINITION. The block has no condition codes and no IEEE-754 flags (spec/10_state.md R33). What it
reports is the status code (spec/60_exceptions.md R91) and the `VALID` vector (R31); their encodings
stand here. -/

namespace Sys2Proof

/-- The 3-bit code of a status (R91); 6 and 7 are never written. -/
def Status.code : Status → BitVec 3
  | .ok => 0#3
  | .illegal => 1#3
  | .type => 2#3
  | .malformed => 3#3
  | .unsupported => 4#3
  | .range => 5#3

/-- The place of a result port in `VALID` (R31). -/
def ResultPort.bit : ResultPort → Nat
  | .valOut => 0
  | .strOut => 1
  | .signOut => 2
  | .expOut => 3
  | .fracOut => 4
  | .sigOut => 5

namespace Machine

/-- `VALID` when no result port holds a value (R18, R98). -/
def validNone : BitVec 6 := 0b000000#6

/-- `VALID` of `DECD` and `DECA` (R73, R87). -/
def validVal : BitVec 6 := 0b000001#6

/-- `VALID` of `ENCD` and `ENCA` (R70, R84). -/
def validStr : BitVec 6 := 0b000010#6

/-- `VALID` of `XTRT` (R68). -/
def validFields : BitVec 6 := 0b011100#6

/-- `VALID` of `RCON` (R69). -/
def validSig : BitVec 6 := 0b100000#6

end Machine

end Sys2Proof
end

