-- ==== Sys2Proof/Machine/Ops.lean ====
section
/-! DEFINITION. The named operations over the ports: clearing the outputs, raising a status (the block's
one exception primitive, spec/60_exceptions.md R98), completing with a result (spec/10_state.md R18),
the alphabet check in front of a string operation (spec/40_fields.md R64), and reset, configuration and
driving of the inputs (spec/70_reset_and_hazards.md R109, R110). The block has no return from an
exception (R100). -/

namespace Sys2Proof.Machine

/-- Every result port starts a transaction with no value (R18). -/
def State.clearResults (s : State) : State :=
  { s with valOut := none, strOut := none, signOut := none, expOut := none, fracOut := none,
           sigOut := none, valid := validNone }

/-- The state after `raise c`: `STATUS <- c`, `VALID <- 0b000000`, no result port holds a value,
nothing else changes (R98). -/
def State.raised (s : State) (c : Status) : State :=
  { s.clearResults with status := some c.code }

/-- `VAL_OUT <- y`, `VALID <- 0b000001`, `STATUS <- OK`. -/
def State.withVal (s : State) (y : BitVec 64) : State :=
  { s.clearResults with valOut := some y, valid := validVal, status := some Status.ok.code }

/-- `STR_OUT <- u`, `VALID <- 0b000010`, `STATUS <- OK`. -/
def State.withStr (s : State) (u : Str) : State :=
  { s.clearResults with strOut := some u, valid := validStr, status := some Status.ok.code }

/-- `SIGN_OUT <- s`, `EXP_OUT <- zext_11(e)`, `FRAC_OUT <- zext_52(F)`, `VALID <- 0b011100`,
`STATUS <- OK` (R26, R27, R28). -/
def State.withFields (s : State) (f : FieldTriple) : State :=
  { s.clearResults with
      signOut := some (BitVec.ofBool f.sign)
      expOut := some (BitVec.ofNat 11 f.exp)
      fracOut := some (BitVec.ofNat 52 f.frac)
      valid := validFields
      status := some Status.ok.code }

/-- `SIG_OUT <- zext_53(n)`, `VALID <- 0b100000`, `STATUS <- OK` (R29). -/
def State.withSig (s : State) (n : Nat) : State :=
  { s.clearResults with
      sigOut := some (BitVec.ofNat 53 n)
      valid := validSig
      status := some Status.ok.code }

/-- `raise c`, the block's only exception primitive (R16, R98): a next state, never a stop. -/
def raise (c : Status) (s : State) : Host.Outcome State Fault Refusal := .next (s.raised c)

/-- The front of every operation that reads `STR_IN`: the alphabet check runs before any other use of
the string and covers every position (R64, R94). -/
def withBitString (s : State) (k : Str → Host.Outcome State Fault Refusal) :
    Host.Outcome State Fault Refusal :=
  if alphabetOk s.strIn then k s.strIn else raise .malformed s

/-- Can the string on `STR_IN` be presented at all (R12)? -/
def presentable (s : State) : Bool := decide (s.strIn.length ≤ s.config.strInMax)

/-- The inputs a transaction reads (R18). -/
def State.inputs (s : State) : Transaction where
  cmd   := s.cmd
  valIn := s.valIn
  strIn := s.strIn

/-- The host drives the three input ports (R18 (1)). -/
def State.drive (s : State) (t : Transaction) : State :=
  { s with cmd := t.cmd, valIn := t.valIn, strIn := t.strIn }

/-- The output ports as the host sees them (R112). -/
def State.outputs (s : State) : Outputs where
  valOut  := s.valOut
  strOut  := s.strOut
  signOut := s.signOut
  expOut  := s.expOut
  fracOut := s.fracOut
  sigOut  := s.sigOut
  status  := s.status
  valid   := s.valid

/-- A reset of a running block: every output port holds no value, and nothing else changes (R109;
entry 16). -/
def State.resetOutputs (s : State) : State := { s.clearResults with status := none }

/-- The integrator sets `ENDIANNESS` before the first transaction (R110). -/
def State.configure (s : State) (e : Endianness) : State :=
  { s with config := { s.config with endianness := e } }

end Sys2Proof.Machine
end

