-- ==== Sys2Proof/Machine/Direct.lean ====
section
/-! DEFINITION. The direct-layout strategy, `ENCD` and `DECD` (spec/41_direct_layout.md R70, R73). It copies
bits and never reads the class of a pattern. -/

namespace Sys2Proof.Machine

/-- `bin_1(s) ++ bin_EB(e) ++ bin_FB(F)`: the three fields as one string (R70). -/
def fieldString (p : Precision) (f : FieldTriple) : Str :=
  bin 1 f.sign.toNat ++ bin p.expBits f.exp ++ bin p.fracBits f.frac

/-- `y[k] <- b`. -/
def setBit {W : Nat} (y : BitVec W) (k : Nat) (b : Bool) : BitVec W :=
  if b then y ||| BitVec.twoPow W k else y &&& ~~~(BitVec.twoPow W k)

/-- The storage fill of `DECD` (R73): with `k` positions left, the next character goes to bit `k − 1`.
It stops at the end of the string, whose unfilled positions keep their value, and when no position
is left. -/
def fillStorage {W : Nat} : Nat → Str → BitVec W → BitVec W
  | 0, _, y => y
  | _ + 1, [], y => y
  | k + 1, c :: t, y => fillStorage k t (setBit y k (c == Ch.one))

/-- `ENCD(x, p)`, shared by both precisions (R70). -/
def encodeDirect (p : Precision) (s : State) : Host.Outcome State Fault Refusal :=
  .next (s.withStr (fieldString p (patternFields p (patternOperand p s.valIn))))

/-- `DECD(t, p)`, shared by both precisions (R73). -/
def decodeDirect (p : Precision) (s : State) : Host.Outcome State Fault Refusal :=
  withBitString s fun t =>
    .next (s.withVal (zext64 (fillStorage p.width t (0#p.width))))

/-- `ENCD.S` (R70). -/
def execEncdS (s : State) : Host.Outcome State Fault Refusal := encodeDirect .s s

/-- `ENCD.D` (R70). -/
def execEncdD (s : State) : Host.Outcome State Fault Refusal := encodeDirect .d s

/-- `DECD.S` (R73). -/
def execDecdS (s : State) : Host.Outcome State Fault Refusal := decodeDirect .s s

/-- `DECD.D` (R73). -/
def execDecdD (s : State) : Host.Outcome State Fault Refusal := decodeDirect .d s

end Sys2Proof.Machine
end

