-- ==== Sys2Proof/Machine/Arithmetic.lean ====
section
/-! DEFINITION. The arithmetic strategy, `ENCA` and `DECA` (spec/42_arithmetic.md R75 to R88). All
arithmetic is exact, on naturals, integers and numerator/denominator pairs (R14, R90). -/

namespace Sys2Proof.Machine

/-- The value of a normal FieldTriple, `(−1)^s × (2^FB + F) × 2^(e − BIAS − FB)`, as an exact
numerator and a power-of-two denominator (R75). -/
def normalValue (p : Precision) (f : FieldTriple) : ExactValue where
  negative := f.sign
  num      := significand p f.frac * 2 ^ f.exp
  den      := 2 ^ (p.bias + p.fracBits)

/-- Step 2, the loop of R78 on `n`, with at most `fuel` turns: the digits found so far are `acc`. -/
def integerDigitsLoop : Nat → Nat → Str → Str
  | 0, _, acc => acc
  | fuel + 1, n, acc =>
    if n = 0 then acc else integerDigitsLoop fuel (n / 2) (bin 1 (n % 2) ++ acc)

/-- Step 2: the integer digit string `ID` of `I`, `""` for 0 (R78). `len(ID) ≤ BIAS + 1`, so the loop
never needs more turns (entry 17). -/
def integerDigits (p : Precision) (I : Nat) : Str := integerDigitsLoop (p.bias + 1) I []

/-- Step 3: the first digits of the fraction `r / den` by repeated doubling (R79). -/
def fractionDigits (den : Nat) : Nat → Nat → Str
  | 0, _ => []
  | n + 1, r =>
    if den ≤ 2 * r then Ch.one :: fractionDigits den n (2 * r - den)
    else Ch.zero :: fractionDigits den n (2 * r)

/-- The position of the first `'1'` of a string and everything after it (R80). -/
def firstOne : Str → Option (Nat × Str)
  | [] => none
  | c :: t =>
    if c = Ch.one then some (0, t)
    else
      match firstOne t with
      | none => none
      | some (q, rest) => some (q + 1, rest)

/-- Step 4: the true exponent `E` and the mantissa stream `M`; `none` is case (c), no `'1'`
anywhere (R80). -/
def normalizeDigits (ID FD : Str) : Option (Int × Str) :=
  match firstOne ID with
  | some (p0, rest) => some ((ID.length : Int) - p0 - 1, rest ++ FD)
  | none =>
    match firstOne FD with
    | some (q, rest) => some (-((q : Int) + 1), rest)
    | none => none

/-- Steps 5 to 7: `eb = E + BIAS`, checked against `1 .. 2^EB − 2` before it is narrowed (R81), then
sign, exponent field and fitted mantissa (R82, R83). -/
def assembleString (p : Precision) (sign : Bool) (E : Int) (M : Str) : Except Status Str :=
  let eb : Int := E + p.bias
  if eb < 1 ∨ (2 : Int) ^ p.expBits - 2 < eb then .error .range
  else .ok (bin 1 sign.toNat ++ bin p.expBits eb.toNat ++ fit p.fracBits M)

/-- A signed zero, `bin_1(s) ++ zeros(EB) ++ zeros(FB)` (R80 (c)). -/
def zeroString (p : Precision) (sign : Bool) : Str :=
  bin 1 sign.toNat ++ zeros p.expBits ++ zeros p.fracBits

/-- Steps 1 to 7 on a value, with `digits` fractional digits (R77 to R83). -/
def encodeValue (p : Precision) (digits : Nat) (v : ExactValue) : Except Status Str :=
  let ID := integerDigits p (v.num / v.den)
  let FD := fractionDigits v.den digits (v.num % v.den)
  match normalizeDigits ID FD with
  | none => .ok (zeroString p v.negative)
  | some (E, M) => assembleString p v.negative E M

/-- `ENCA` on a FieldTriple: the operand domain of R76, then the steps. -/
def encodeFields (p : Precision) (digits : Nat) (f : FieldTriple) : Except Status Str :=
  match classify p f with
  | .subnormalPattern | .specialPattern => .error .unsupported
  | .zero => .ok (zeroString p f.sign)
  | .normal => encodeValue p digits (normalValue p f)

/-- `ENCA(x, p)`, shared by both precisions (R84). -/
def encodeArithmetic (p : Precision) (s : State) : Host.Outcome State Fault Refusal :=
  match encodeFields p (s.config.fracDigits.count p)
      (patternFields p (patternOperand p s.valIn)) with
  | .ok u => .next (s.withStr u)
  | .error c => raise c s

/-- The normal pattern whose value is `v` (R87): its exponent is the largest `E` with `2^E ≤ |v|`, its
fraction field the significand's bits below the leading one (entry 10). `v.den` is a power of two
(R90). -/
def valuePattern (p : Precision) (v : ExactValue) : BitVec p.width :=
  let E : Int := (v.num.log2 : Int) - v.den.log2
  fieldsPattern p
    { sign := v.negative
      exp := (E + p.bias).toNat
      frac := v.num * 2 ^ p.fracBits / 2 ^ v.num.log2 - 2 ^ p.fracBits }

/-- `DECA` on a FieldTriple: the operand domain of R86, then the value formula (R87). -/
def decodeFields (p : Precision) (f : FieldTriple) : Except Status (BitVec p.width) :=
  if f.exp = 0 ∨ f.exp = p.expMax then .error .unsupported
  else .ok (valuePattern p (normalValue p f))

/-- `DECA(t, p)`, shared by both precisions (R87). -/
def decodeArithmetic (p : Precision) (s : State) : Host.Outcome State Fault Refusal :=
  withBitString s fun t =>
    match decodeFields p (stringFields p (fit p.width t)) with
    | .ok y => .next (s.withVal (zext64 y))
    | .error c => raise c s

/-- `ENCA.S` (R84). -/
def execEncaS (s : State) : Host.Outcome State Fault Refusal := encodeArithmetic .s s

/-- `ENCA.D` (R84). -/
def execEncaD (s : State) : Host.Outcome State Fault Refusal := encodeArithmetic .d s

/-- `DECA.S` (R87). -/
def execDecaS (s : State) : Host.Outcome State Fault Refusal := decodeArithmetic .s s

/-- `DECA.D` (R87). -/
def execDecaD (s : State) : Host.Outcome State Fault Refusal := decodeArithmetic .d s

end Sys2Proof.Machine
end

