-- ==== Sys2Proof/Machine/Fields.lean ====
section
/-! DEFINITION. The two sub-units: the field extractor `XTRT` and the normalized mantissa reconstructor
`RCON` (spec/40_fields.md R68, R69). Neither reads the class of its operand. -/

namespace Sys2Proof.Machine

/-- `XTRT(t, p)`, shared by both precisions (R68). -/
def extractFields (p : Precision) (s : State) : Host.Outcome State Fault Refusal :=
  withBitString s fun t => .next (s.withFields (stringFields p (fit p.width t)))

/-- `RCON(t, p)`, shared by both precisions (R69): the sign and exponent fields are read and
discarded. -/
def reconstruct (p : Precision) (s : State) : Host.Outcome State Fault Refusal :=
  withBitString s fun t =>
    .next (s.withSig (significand p (stringFields p (fit p.width t)).frac))

/-- `XTRT.S` (R68). -/
def execXtrtS (s : State) : Host.Outcome State Fault Refusal := extractFields .s s

/-- `XTRT.D` (R68). -/
def execXtrtD (s : State) : Host.Outcome State Fault Refusal := extractFields .d s

/-- `RCON.S` (R69). -/
def execRconS (s : State) : Host.Outcome State Fault Refusal := reconstruct .s s

/-- `RCON.D` (R69). -/
def execRconD (s : State) : Host.Outcome State Fault Refusal := reconstruct .d s

end Sys2Proof.Machine
end

