-- ==== Sys2Proof/Machine/Dispatch.lean ====
section
/-! DEFINITION. One arm per command of spec/opcode_table.json, each a direct call of its meaning. -/

namespace Sys2Proof.Machine

def exec (i : Instr) (s : State) : Host.Outcome State Fault Refusal :=
  match i with
  | .encdS => Sys2Proof.Machine.execEncdS s
  | .decdS => Sys2Proof.Machine.execDecdS s
  | .encaS => Sys2Proof.Machine.execEncaS s
  | .decaS => Sys2Proof.Machine.execDecaS s
  | .xtrtS => Sys2Proof.Machine.execXtrtS s
  | .rconS => Sys2Proof.Machine.execRconS s
  | .encdD => Sys2Proof.Machine.execEncdD s
  | .decdD => Sys2Proof.Machine.execDecdD s
  | .encaD => Sys2Proof.Machine.execEncaD s
  | .decaD => Sys2Proof.Machine.execDecaD s
  | .xtrtD => Sys2Proof.Machine.execXtrtD s
  | .rconD => Sys2Proof.Machine.execRconD s

end Sys2Proof.Machine
end

