-- ==== Sys2Proof/Machine/Step.lean ====
section
/-! DEFINITION. One step is one transaction on the input ports as they stand (spec/10_state.md R18; entry
6). The block fetches nothing: its command is the input port `CMD` (spec/20_memory.md R48). -/

namespace Sys2Proof.Machine

/-- One transaction (R18): decode `CMD`, raise `ILLEGAL` or `TYPE` if it is reserved, otherwise run the
operation's rule. A string the port cannot hold is no transaction (R12; entry 9). -/
def step (s : State) : Host.Outcome State Fault Refusal :=
  if presentable s then
    match decodeCmd s.cmd with
    | .ok i => exec i s
    | .error c => raise c s
  else .refused .stringTooLong

/-- `s` with the table word `w` on `CMD`, where the next transaction takes its command (R48). It stands
for the host's presenting that command (entry 6). -/
def State.withFetchWord (s : State) (nbits w : Nat) : State :=
  { s with cmd := BitVec.ofNat 8 (w % 2 ^ nbits) }

end Sys2Proof.Machine
end

