-- ==== Sys2Proof/Machine/HostPort.lean ====
section
/-! DEFINITION. What the host does at the ports: reading an output under `VALID` (spec/10_state.md R31),
presenting one line of a host program and running a sequence of them (spec/30_encoding.md R59,
spec/70_reset_and_hazards.md R111, R112), and the byte wrapper of spec/20_memory.md R44. -/

namespace Sys2Proof.Machine

/-- A read of a result port: a fault where its `VALID` bit is 0 (R31, R111 (2)). -/
def readResult {α : Type} (s : State) (q : ResultPort) (port : Option α) : Except Fault α :=
  if s.valid.getLsbD q.bit then
    match port with
    | some a => .ok a
    | none => .error (.noValue q)
  else .error (.noValue q)

/-- The host reads `VAL_OUT`. -/
def readValOut (s : State) : Except Fault (BitVec 64) := readResult s .valOut s.valOut

/-- The host reads `STR_OUT`. -/
def readStrOut (s : State) : Except Fault Str := readResult s .strOut s.strOut

/-- The host reads `SIGN_OUT`. -/
def readSignOut (s : State) : Except Fault (BitVec 1) := readResult s .signOut s.signOut

/-- The host reads `EXP_OUT`. -/
def readExpOut (s : State) : Except Fault (BitVec 11) := readResult s .expOut s.expOut

/-- The host reads `FRAC_OUT`. -/
def readFracOut (s : State) : Except Fault (BitVec 52) := readResult s .fracOut s.fracOut

/-- The host reads `SIG_OUT`. -/
def readSigOut (s : State) : Except Fault (BitVec 53) := readResult s .sigOut s.sigOut

/-- The host reads `STATUS`: a fault before the first transaction after reset (R36, R109). -/
def readStatus (s : State) : Except Fault (BitVec 3) :=
  match s.status with
  | some c => .ok c
  | none => .error .noStatus

/-- The inputs the host presents for one line of a program. An operand drives the port it belongs to
and the other operand port stays as it stood (entry 12); a copied result port must hold a value
(R111 (2), (3)). -/
def hostInputs (c : HostCommand) (s : State) : Except Fault Transaction :=
  match c.operand with
  | .pattern x => .ok { cmd := c.cmd, valIn := x, strIn := s.strIn }
  | .string t => .ok { cmd := c.cmd, valIn := s.valIn, strIn := t }
  | .previousStrOut =>
    match readStrOut s with
    | .ok u => .ok { cmd := c.cmd, valIn := s.valIn, strIn := u }
    | .error r => .error r
  | .previousValOut =>
    match readValOut s with
    | .ok y => .ok { cmd := c.cmd, valIn := y, strIn := s.strIn }
    | .error r => .error r

/-- One line of a host program: drive the inputs, then one transaction (R18). -/
def hostCommand (c : HostCommand) (s : State) : Host.Outcome State Fault Refusal :=
  match hostInputs c s with
  | .ok t => step (s.drive t)
  | .error r => .fault r

/-- A host program (R112): its end state is the output ports of every transaction it ran, in order.
DESIGN CHOICE (entry 18): where a line's host read faults or its string is refused, the program
answers that fault or refusal alone, without the outputs of the transactions that ran before it; the
spec gives no end state there. -/
def hostProgram : List HostCommand → State → Host.Outcome (List Outputs) Fault Refusal
  | [], _ => .next []
  | c :: rest, s =>
    match hostCommand c s with
    | .fault r => .fault r
    | .refused r => .refused r
    | .next s' =>
      match hostProgram rest s' with
      | .fault r => .fault r
      | .refused r => .refused r
      | .next outs => .next (s'.outputs :: outs)

/-- The number of bytes of a value, `n = W(p)/8` (R44). -/
def byteCount (p : Precision) : Nat := p.width / 8

/-- Which byte of the pattern stands at address `a + j`: byte `j` (bits `8j+7 : 8j`) for `little`,
byte `n − 1 − j` for `big` (R44; entry 11). -/
def byteAt (e : Endianness) (n j : Nat) : Nat :=
  match e with
  | .little => j
  | .big => n - 1 - j

/-- The host wrapper scatters a value port's pattern to the `n` cells at addresses `a .. a+n−1`
(R44). -/
def scatterBytes (e : Endianness) (p : Precision) (a : Nat) (v : BitVec 64) : List Host.Cell :=
  (List.range (byteCount p)).map fun j =>
    (a + j, v.extractLsb' (8 * byteAt e (byteCount p) j) 8)

/-- The byte a host's memory lists at an address, if it lists one. -/
def byteOf (m : List Host.Cell) (a : Nat) : Option (BitVec 8) :=
  match m with
  | [] => none
  | (b, v) :: rest => if b = a then some v else byteOf rest a

/-- The pattern whose byte `k`, for `k` below the last argument, stands at `a + byteAt e n k`. DESIGN
CHOICE (entry 11): the bits above the gathered bytes, `VAL_IN[63:32]` at `S`, are 0; R44 does not say
what they hold, and no result of the block depends on them (R22). -/
def gatherBytes (e : Endianness) (n : Nat) (m : List Host.Cell) (a : Nat) :
    Nat → Option (BitVec 64)
  | 0 => some 0#64
  | k + 1 =>
    match gatherBytes e n m a k, byteOf m (a + byteAt e n k) with
    | some v, some b => some (v ||| (b.setWidth 64 <<< (8 * k)))
    | _, _ => none

/-- The host wrapper assembles `VAL_IN` from the `n` bytes at addresses `a .. a+n−1` (R44).
DESIGN CHOICE (entry 11): `none` where the host's memory lists no byte at one of them, and the bits of
`VAL_IN` above the `n` bytes are 0. -/
def assembleBytes (e : Endianness) (p : Precision) (m : List Host.Cell) (a : Nat) :
    Option (BitVec 64) :=
  gatherBytes e (byteCount p) m a (byteCount p)

end Sys2Proof.Machine
end

