-- ==== Sys2Proof/Safety.lean ====
section
/-! DEFINITION. What counts as a safe state: the invariants of the ports that the spec states for every
transaction's outcome. -/

namespace Sys2Proof.Machine

/-- A `VALID` bit is 1 exactly when the port holds a value (R31). -/
def State.validMatchesPorts (s : State) : Prop :=
  s.valid.getLsbD 0 = s.valOut.isSome ∧
  s.valid.getLsbD 1 = s.strOut.isSome ∧
  s.valid.getLsbD 2 = s.signOut.isSome ∧
  s.valid.getLsbD 3 = s.expOut.isSome ∧
  s.valid.getLsbD 4 = s.fracOut.isSome ∧
  s.valid.getLsbD 5 = s.sigOut.isSome

/-- `STATUS` holds one of the codes 0 to 5, or no value before the first transaction (R36, R91). -/
def State.statusLegal (s : State) : Prop :=
  ∀ c, s.status = some c → c.toNat ≤ 5

/-- Some result port holds a value exactly when the last transaction completed with `OK` (R18, R98). -/
def State.okMatchesValid (s : State) : Prop :=
  s.valid ≠ validNone ↔ s.status = some Status.ok.code

/-- A `STR_OUT` that holds a value is 32 or 64 characters, each `'0'` or `'1'` (R25). -/
def State.strOutLegal (s : State) : Prop :=
  ∀ u, s.strOut = some u →
    (u.length = 32 ∨ u.length = 64) ∧ ∀ c ∈ u, c = Ch.zero ∨ c = Ch.one

/-- The significand on `SIG_OUT` is normalized: its leading bit is bit 23 or bit 52 (R29). -/
def State.sigOutNormalized (s : State) : Prop :=
  ∀ n, s.sigOut = some n →
    (2 ^ 23 ≤ n.toNat ∧ n.toNat < 2 ^ 24) ∨ (2 ^ 52 ≤ n.toNat ∧ n.toNat < 2 ^ 53)

/-- The invariant of the block: what its output ports, its configuration and the string on its input
port always satisfy (R12, R25, R29, R31, R91). -/
structure State.Inv (s : State) : Prop where
  validMatchesPorts : s.validMatchesPorts
  statusLegal       : s.statusLegal
  okMatchesValid    : s.okMatchesValid
  strOutLegal       : s.strOutLegal
  sigOutNormalized  : s.sigOutNormalized
  configLegal       : s.config.wf = true
  stringFits        : presentable s = true

end Sys2Proof.Machine
end

