-- ==== Sys2Proof/Certificates/Slice0/Obligations.lean ====
section
/-! DEFINITION. The statements for the provers. The first part says in the spec's own terms what a state, a
string and a value are after a transaction, with codes and `VALID` vectors written out; each statement
then cites the rule it formalises. -/

namespace Sys2Proof.Stated

open Sys2Proof.Machine

/-- The state after a transaction that ended with a status code and no result (R98): every result port
holds no value, `VALID` is 0, and the inputs and the configuration are as before. -/
def afterStatus (s : State) (c : BitVec 3) : State where
  cmd := s.cmd
  valIn := s.valIn
  strIn := s.strIn
  valOut := none
  strOut := none
  signOut := none
  expOut := none
  fracOut := none
  sigOut := none
  status := some c
  valid := 0b000000#6
  config := s.config

/-- `OK` with `VAL_OUT` alone. -/
def afterVal (s : State) (y : BitVec 64) : State :=
  { afterStatus s 0#3 with valOut := some y, valid := 0b000001#6 }

/-- `OK` with `STR_OUT` alone. -/
def afterStr (s : State) (u : Str) : State :=
  { afterStatus s 0#3 with strOut := some u, valid := 0b000010#6 }

/-- `OK` with `SIGN_OUT`, `EXP_OUT` and `FRAC_OUT` alone. -/
def afterFields (s : State) (sg : BitVec 1) (e : BitVec 11) (F : BitVec 52) : State :=
  { afterStatus s 0#3 with
      signOut := some sg, expOut := some e, fracOut := some F, valid := 0b011100#6 }

/-- `OK` with `SIG_OUT` alone. -/
def afterSig (s : State) (n : BitVec 53) : State :=
  { afterStatus s 0#3 with sigOut := some n, valid := 0b100000#6 }

/-- Every character, at every position, is `'0'` or `'1'` (R64). -/
def bitString (t : Str) : Prop := ∀ c ∈ t, c = Ch.zero ∨ c = Ch.one

/-- `str_W(x)`: character `i` is `'1'` where bit `W − 1 − i` is 1 (R62). -/
def strOf {W : Nat} (x : BitVec W) : Str :=
  (List.range W).map fun i => if x.getLsbD (W - 1 - i) then Ch.one else Ch.zero

/-- The pattern on `VAL_IN` (R22): its low `W(p)` bits. -/
def operand (p : Precision) (s : State) : BitVec p.width := s.valIn.setWidth p.width

/-- The biased exponent field of a pattern as a number (R61). -/
def expField (p : Precision) (x : BitVec p.width) : Nat := x.toNat / 2 ^ p.fracBits % 2 ^ p.expBits

/-- The fraction field of a pattern as a number (R61). -/
def fracField (p : Precision) (x : BitVec p.width) : Nat := x.toNat % 2 ^ p.fracBits

/-- The sign bit of a pattern (R61). -/
def signBit (p : Precision) (x : BitVec p.width) : Bool := x.getLsbD (p.width - 1)

/-- The normal class of patterns: `1 ≤ e ≤ 2^EB − 2` (R67). -/
def normalPattern (p : Precision) (x : BitVec p.width) : Prop :=
  1 ≤ expField p x ∧ expField p x ≤ 2 ^ p.expBits - 2

/-- The pattern `{s, e, F}` with fields given as numbers (R61). -/
def patternOf (p : Precision) (sg : Bool) (e F : Nat) : BitVec p.width :=
  BitVec.ofNat p.width (sg.toNat * 2 ^ (p.width - 1) + e * 2 ^ p.fracBits + F)

/-- Is character `i` of a string `'1'`? Past its end it is not, as padding has it (R63). -/
def oneAt (t : Str) (i : Nat) : Bool := t[i]? == some Ch.one

/-- The exponent field of a string fitted to the width: all zero? (R65, R86) -/
def expAllZero (p : Precision) (t : Str) : Prop := ∀ k < p.expBits, oneAt t (1 + k) = false

/-- The exponent field of a string fitted to the width: all one? (R65, R86) -/
def expAllOne (p : Precision) (t : Str) : Prop := ∀ k < p.expBits, oneAt t (1 + k) = true

/-- The value formula of a normal pattern, `(−1)^s × (1 + F / 2^FB) × 2^(e − BIAS)`, as a rational
(R75). -/
def formulaValue (p : Precision) (x : BitVec p.width) : ℚ :=
  (-1) ^ (signBit p x).toNat * (1 + (fracField p x : ℚ) / 2 ^ p.fracBits) *
    (2 : ℚ) ^ ((expField p x : ℤ) - (p.bias : ℤ))

/-- The exact value the model computes with, as a rational. -/
def rationalOf (v : ExactValue) : ℚ := (-1) ^ v.negative.toNat * ((v.num : ℚ) / (v.den : ℚ))

/-- The true exponent of a pattern, `E0 = e − BIAS` (R75). -/
def trueExp (p : Precision) (x : BitVec p.width) : Int := (expField p x : Int) - (p.bias : Int)

/-- `k = max(0, FB − L)` with `L = digits + E0`: the low fraction bits that truncation clears (R85). -/
def clearedBits (p : Precision) (digits : Nat) (x : BitVec p.width) : Nat :=
  ((p.fracBits : Int) - ((digits : Int) + trueExp p x)).toNat

/-- The closed form of `ENCA` on a normal pattern with `digits` fractional digits (R85). -/
def closedForm (p : Precision) (digits : Nat) (x : BitVec p.width) : Str :=
  if 0 ≤ trueExp p x then strOf x
  else if -trueExp p x ≤ (digits : Int) then
    strOf (patternOf p (signBit p x) (expField p x)
      (fracField p x / 2 ^ clearedBits p digits x * 2 ^ clearedBits p digits x))
  else (if signBit p x then Ch.one else Ch.zero) :: List.replicate (p.width - 1) Ch.zero

/-- The twelve legal commands (R56). -/
def commandMap : List (BitVec 8 × Instr) :=
  [(0x00#8, .encdS), (0x01#8, .decdS), (0x02#8, .encaS), (0x03#8, .decaS), (0x04#8, .xtrtS),
   (0x05#8, .rconS), (0x08#8, .encdD), (0x09#8, .decdD), (0x0A#8, .encaD), (0x0B#8, .decaD),
   (0x0C#8, .xtrtD), (0x0D#8, .rconD)]

/-- The twelve words that raise `TYPE` (R57). -/
def typeWords : List (BitVec 8) :=
  [0x10#8, 0x11#8, 0x12#8, 0x13#8, 0x14#8, 0x15#8, 0x18#8, 0x19#8, 0x1A#8, 0x1B#8, 0x1C#8, 0x1D#8]

/-- The words that raise `ILLEGAL` (R57). -/
def illegalWord (w : BitVec 8) : Prop :=
  w ∈ [0x06#8, 0x07#8, 0x0E#8, 0x0F#8, 0x16#8, 0x17#8, 0x1E#8, 0x1F#8] ∨ 0x20#8 ≤ w

/-- The precision of a command word, from its bit 3 (R54). -/
def wordPrec (w : BitVec 8) : Precision := if w.getLsbD 3 then .d else .s

/-- Does `ENCA` support this operand (R76)? It supports normal and zero patterns. -/
def encaSupports (p : Precision) (x : BitVec p.width) : Prop :=
  (expField p x = 0 → fracField p x = 0) ∧ expField p x ≠ 2 ^ p.expBits - 1

/-- Does `DECA` support this string (R86)? -/
def decaSupports (p : Precision) (t : Str) : Prop := ¬ expAllZero p t ∧ ¬ expAllOne p t

open Classical in
/-- The status every transaction reports, in the order the conditions are tested (R97). `RANGE` (5) is
not among them: no operand that is accepted raises it (R81). -/
noncomputable def statusRule (s : State) : BitVec 3 :=
  if s.cmd.extractLsb' 5 3 ≠ 0#3 ∨ s.cmd.extractLsb' 0 3 = 6#3 ∨ s.cmd.extractLsb' 0 3 = 7#3 then 1#3
  else if s.cmd.getLsbD 4 = true then 2#3
  else if s.cmd.extractLsb' 0 3 ∉ [0#3, 2#3] ∧ ¬ bitString s.strIn then 3#3
  else if s.cmd.extractLsb' 0 3 = 2#3 ∧ ¬ encaSupports (wordPrec s.cmd) (operand (wordPrec s.cmd) s)
    then 4#3
  else if s.cmd.extractLsb' 0 3 = 3#3 ∧ ¬ decaSupports (wordPrec s.cmd) s.strIn then 4#3
  else 0#3

end Sys2Proof.Stated

open Sys2Proof Sys2Proof.Machine Sys2Proof.Stated

/-! ## Encoding and decode -/

/-- The precision table and `FRAC_EXACT`. The spec marks all but the field widths as derived from the bias
formula (R7, R8). -/
def Obligations.PrecisionTable : Prop :=
  (Precision.s.width, Precision.s.expBits, Precision.s.fracBits, Precision.s.bias,
    Precision.s.expMax, Precision.s.fracExact) = (32, 8, 23, 127, 255, 149) ∧
  (Precision.d.width, Precision.d.expBits, Precision.d.fracBits, Precision.d.bias,
    Precision.d.expMax, Precision.d.fracExact) = (64, 11, 52, 1023, 2047, 1074)

/-- Every FieldTriple is in exactly one class, by its exponent and fraction fields (R67). -/
def Obligations.ClassesOfPatterns : Prop :=
  ∀ (p : Precision) (f : FieldTriple), f.exp < 2 ^ p.expBits → f.frac < 2 ^ p.fracBits →
    (classify p f = .normal ↔ 1 ≤ f.exp ∧ f.exp ≤ 2 ^ p.expBits - 2) ∧
    (classify p f = .zero ↔ f.exp = 0 ∧ f.frac = 0) ∧
    (classify p f = .subnormalPattern ↔ f.exp = 0 ∧ f.frac ≠ 0) ∧
    (classify p f = .specialPattern ↔ f.exp = 2 ^ p.expBits - 1)

/-- A word decodes to a command exactly where the map of 30_encoding.md section 3 says so (R56, which the
spec derives from R50 to R53). -/
def Obligations.DecoderIsTheCommandMap : Prop :=
  ∀ (w : BitVec 8) (i : Instr), decodeCmd w = .ok i ↔ (w, i) ∈ commandMap

/-- Decoding of the command word, total on all 256 values: `RSV` first, then `OP`, then `PREC` (R54). -/
def Obligations.DecoderFollowsTheDecodeRule : Prop :=
  ∀ w : BitVec 8, decodeCmd w =
    if w.extractLsb' 5 3 ≠ 0b000#3 then .error .illegal
    else if w.extractLsb' 0 3 = 0b110#3 ∨ w.extractLsb' 0 3 = 0b111#3 then .error .illegal
    else if w.getLsbD 4 = true then .error .type
    else .ok (Instr.ofOp
      ([Op.encd, .decd, .enca, .deca, .xtrt, .rcon].getD (w.extractLsb' 0 3).toNat .encd)
      (if w.getLsbD 3 = false then .s else .d))

/-- Decode and encode agree, both ways (R50, R54, R56). -/
def Obligations.DecodeEncodeAgree : Prop :=
  ∀ (i : Instr) (w : BitVec 8), i.wf = true →
    decodeCmd (encode i) = .ok i ∧ (decodeCmd w = .ok i → encode i = w)

/-- One word per operation written out from `RSV`, `PREC` and `OP` (R50, R51, R52). -/
def Obligations.WrittenOutWordsDecode : Prop :=
  decodeCmd 0b00000000#8 = .ok .encdS ∧ decodeCmd 0b00001001#8 = .ok .decdD ∧
  decodeCmd 0b00000010#8 = .ok .encaS ∧ decodeCmd 0b00001011#8 = .ok .decaD ∧
  decodeCmd 0b00000100#8 = .ok .xtrtS ∧ decodeCmd 0b00001101#8 = .ok .rconD

/-! ## Transactions -/

/-- A step runs the command on `CMD`; the block adds nothing around it (R18, R20, R48, R54). -/
def Obligations.StepRunsTheDecodedCommand : Prop :=
  ∀ (s : State) (i : Instr), s.strIn.length ≤ s.config.strInMax → decodeCmd s.cmd = .ok i →
    step s = exec i s

/-- A reserved word raises `TYPE` (2) or `ILLEGAL` (1) and changes nothing but `STATUS` and `VALID` (the
word lists of R57, which the spec derives from R54; R92, R93). -/
def Obligations.StepRaisesOnReservedWord : Prop :=
  ∀ s : State, s.strIn.length ≤ s.config.strInMax →
    (s.cmd ∈ typeWords → step s = .next (afterStatus s 2#3)) ∧
    (illegalWord s.cmd → step s = .next (afterStatus s 1#3))

/-- A string longer than `STR_IN_MAX` is no transaction (R12). That a step then answers a refusal is the
model's form of it (log entry 9). -/
def Obligations.StepRefusesStringLongerThanThePort : Prop :=
  ∀ s : State, s.config.strInMax < s.strIn.length → step s = .refused .stringTooLong

/-- `raise C` writes `STATUS` and `VALID` and nothing else (R98). -/
def Obligations.RaiseIsPrecise : Prop :=
  ∀ (c : Status) (s : State), raise c s = .next (afterStatus s c.code)

/-- The codes of the statuses (R91). -/
def Obligations.StatusCodes : Prop :=
  [Status.ok, .illegal, .type, .malformed, .unsupported, .range].map Status.code =
    [0#3, 1#3, 2#3, 3#3, 4#3, 5#3]

/-- Every transaction reports exactly the status of R97's order of tests. -/
def Obligations.StatusOfEveryTransaction : Prop :=
  ∀ s : State, s.strIn.length ≤ s.config.strInMax →
    ∃ t, step s = .next t ∧ t.status = some (statusRule s)

/-- A transaction writes output ports only (R18). -/
def Obligations.TransactionWritesOnlyOutputPorts : Prop :=
  ∀ s t : State, step s = .next t →
    t.cmd = s.cmd ∧ t.valIn = s.valIn ∧ t.strIn = s.strIn ∧ t.config = s.config

/-- Repeating a transaction with the same inputs gives the same outputs (R40). The second step is run with
nothing driven in between: that the inputs stay as they were is the model's choice (log entry 7). -/
def Obligations.TransactionIsIdempotent : Prop :=
  ∀ s t : State, step s = .next t → step t = .next t

/-- Equal inputs give equal outputs, whatever ran before and whatever `ENDIANNESS` is (R35, which the spec
derives from R18 and R19; R71); the two parameters that shape the block itself are the same in
both. -/
def Obligations.OutputsDependOnInputsOnly : Prop :=
  ∀ s s' t : State, s.cmd = s'.cmd → s.valIn = s'.valIn → s.strIn = s'.strIn →
    s.config.strInMax = s'.config.strInMax → s.config.fracDigits = s'.config.fracDigits →
    step s = .next t → ∃ t', step s' = .next t' ∧ t'.outputs = t.outputs

/-- No result depends on `ENDIANNESS`: configuring it commutes with a transaction (R71). -/
def Obligations.EndiannessChangesNoResult : Prop :=
  ∀ (s t : State) (e : Endianness), step s = .next t →
    step (s.configure e) = .next (t.configure e) ∧ (t.configure e).outputs = t.outputs

/-- Every step keeps the invariant of the block (R12, R25, R29, R31, R91). -/
def Obligations.EveryStepKeepsTheInvariant : Prop :=
  ∀ s t : State, s.Inv → step s = .next t → t.Inv

/-- The invariant holds after reset. The configuration and inputs there are the model's (entries 1, 2,
3). -/
def Obligations.ResetMeetsTheInvariant : Prop := State.reset.Inv

/-- Reset puts every output port in the state "no value" and changes nothing else, and a transaction after
reset behaves as any other (R109). -/
def Obligations.ResetLeavesNoOutputValue : Prop :=
  State.reset.outputs =
      { valOut := none, strOut := none, signOut := none, expOut := none, fracOut := none,
        sigOut := none, status := none, valid := 0b000000#6 } ∧
  ∀ s : State, s.resetOutputs = { afterStatus s 0#3 with status := none } ∧
    step s.resetOutputs = step s

/-- `VALID` decides every read of a result port (R31): a port whose bit is 1 is read, one whose bit is 0
faults. `STATUS` faults only before the first transaction (R36). -/
def Obligations.HostReadsOnlyValidPorts : Prop :=
  ∀ s : State, s.Inv →
    (s.valid.getLsbD 0 = true → ∃ y, s.valOut = some y ∧ readValOut s = .ok y) ∧
    (s.valid.getLsbD 1 = true → ∃ u, s.strOut = some u ∧ readStrOut s = .ok u) ∧
    (s.valid.getLsbD 2 = true → ∃ b, s.signOut = some b ∧ readSignOut s = .ok b) ∧
    (s.valid.getLsbD 3 = true → ∃ e, s.expOut = some e ∧ readExpOut s = .ok e) ∧
    (s.valid.getLsbD 4 = true → ∃ F, s.fracOut = some F ∧ readFracOut s = .ok F) ∧
    (s.valid.getLsbD 5 = true → ∃ n, s.sigOut = some n ∧ readSigOut s = .ok n) ∧
    (s.valid.getLsbD 0 = false → readValOut s = .error (.noValue .valOut)) ∧
    (s.valid.getLsbD 1 = false → readStrOut s = .error (.noValue .strOut)) ∧
    (s.valid.getLsbD 2 = false → readSignOut s = .error (.noValue .signOut)) ∧
    (s.valid.getLsbD 3 = false → readExpOut s = .error (.noValue .expOut)) ∧
    (s.valid.getLsbD 4 = false → readFracOut s = .error (.noValue .fracOut)) ∧
    (s.valid.getLsbD 5 = false → readSigOut s = .error (.noValue .sigOut)) ∧
    (s.status = none → readStatus s = .error .noStatus) ∧
    ∀ c, s.status = some c → readStatus s = .ok c

/-- The four operations that read `STR_IN` raise `MALFORMED` (3) exactly where a character at any position
is neither `'0'` nor `'1'`; a wrong length alone never does (R64, R94). -/
def Obligations.StringOperationsRaiseMalformed : Prop :=
  ∀ (p : Precision) (o : Op) (s : State), o = .decd ∨ o = .deca ∨ o = .xtrt ∨ o = .rcon →
    (¬ bitString s.strIn → exec (Instr.ofOp o p) s = .next (afterStatus s 3#3)) ∧
    (bitString s.strIn → ∃ t, exec (Instr.ofOp o p) s = .next t ∧ t.status ≠ some 3#3)

/-! ## The direct-layout strategy -/

/-- `ENCD.S` and `ENCD.D` write `str_W(x)` for every pattern and raise nothing (R62, R70). -/
def Obligations.EncdWritesThePatternString : Prop :=
  ∀ (p : Precision) (s : State),
    exec (Instr.ofOp .encd p) s = .next (afterStr s (strOf (operand p s)))

/-- `DECD.S` and `DECD.D` copy each character to its bit; missing characters leave 0, extra ones have
no effect, and the upper half of `VAL_OUT` is 0 at `S`; a malformed string raises `MALFORMED` (R73). -/
def Obligations.DecdWritesTheStringPattern : Prop :=
  ∀ (p : Precision) (s : State),
    (bitString s.strIn → ∃ y, exec (Instr.ofOp .decd p) s = .next (afterVal s y) ∧
      ∀ k < 64, y.getLsbD k = (decide (k < p.width) && oneAt s.strIn (p.width - 1 - k))) ∧
    (¬ bitString s.strIn → exec (Instr.ofOp .decd p) s = .next (afterStatus s 3#3))

/-- Laws (a), (b) and (c) of the direct strategy: decoding what was encoded gives every pattern back,
encoding what was decoded gives every `W`-character bit string back, and the encoded string has `W`
characters (R74, which the spec derives from R62, R70 and R73). -/
def Obligations.DirectStrategyLaws : Prop :=
  (∀ (p : Precision) (s : State), ∃ t u t',
    exec (Instr.ofOp .encd p) s = .next t ∧ t.strOut = some u ∧ u.length = p.width ∧
    exec (Instr.ofOp .decd p) { t with strIn := u } = .next t' ∧
    t'.valOut = some ((operand p s).setWidth 64)) ∧
  ∀ (p : Precision) (s : State), s.strIn.length = p.width → bitString s.strIn →
    ∃ t y t', exec (Instr.ofOp .decd p) s = .next t ∧ t.valOut = some y ∧
      exec (Instr.ofOp .encd p) { t with valIn := y } = .next t' ∧ t'.strOut = some s.strIn

/-- Both encoders produce strings of exactly `W(p)` characters of the alphabet (R25). -/
def Obligations.EncodedStringsHaveFixedWidth : Prop :=
  ∀ (p : Precision) (o : Op) (s t : State) (u : Str), o = .encd ∨ o = .enca →
    exec (Instr.ofOp o p) s = .next t → t.strOut = some u → u.length = p.width ∧ bitString u

/-- Every string a transaction produces can be fed back: it fits the string port (R12). -/
def Obligations.EncodedStringsCanBeFedBack : Prop :=
  ∀ (s t : State) (u : Str), s.config.wf = true → step s = .next t → t.strOut = some u →
    u.length ≤ s.config.strInMax ∧ ∃ t', step { t with strIn := u } = .next t'

/-- At `S` the bits `VAL_IN[63:32]` have no effect on either encoder (R22). -/
def Obligations.UpperHalfOfValInIsIgnoredAtS : Prop :=
  ∀ (o : Op) (s t : State) (v : BitVec 64), o = .encd ∨ o = .enca →
    v.extractLsb' 0 32 = s.valIn.extractLsb' 0 32 → exec (Instr.ofOp o .s) s = .next t →
    exec (Instr.ofOp o .s) { s with valIn := v } = .next { t with valIn := v }

/-! ## The arithmetic strategy: encoder -/

/-- `UNSUPPORTED` (4): raised by `ENCA` for an exponent field all zero with a non-zero fraction, or all
one, and by `DECA` for an exponent field all zero or all one; the direct path and the sub-units never
raise it (R95). -/
def Obligations.UnsupportedOperands : Prop :=
  ∀ (p : Precision) (s : State),
    ((expField p (operand p s) = 0 ∧ fracField p (operand p s) ≠ 0) ∨
        expField p (operand p s) = 2 ^ p.expBits - 1 →
      exec (Instr.ofOp .enca p) s = .next (afterStatus s 4#3)) ∧
    (bitString s.strIn → expAllZero p s.strIn ∨ expAllOne p s.strIn →
      exec (Instr.ofOp .deca p) s = .next (afterStatus s 4#3)) ∧
    ∀ o, o = .encd ∨ o = .decd ∨ o = .xtrt ∨ o = .rcon →
      ∃ t, exec (Instr.ofOp o p) s = .next t ∧ t.status ≠ some 4#3

/-- Zero handling: both encoders give the operand's sign followed by zeros for `+0.0` and `−0.0`, at
every value of `FRAC_DIGITS` (R77, R80, R89). -/
def Obligations.EncodersGiveSignedZero : Prop :=
  ∀ (p : Precision) (o : Op) (s : State), o = .encd ∨ o = .enca →
    expField p (operand p s) = 0 → fracField p (operand p s) = 0 →
    exec (Instr.ofOp o p) s =
      .next (afterStr s ((if signBit p (operand p s) then Ch.one else Ch.zero) ::
        List.replicate (p.width - 1) Ch.zero))

/-- With `FRAC_DIGITS = FRAC_EXACT` the arithmetic encoder agrees with the direct one on every normal
and every zero pattern (R85, R89). -/
def Obligations.EncaAgreesWithEncd : Prop :=
  ∀ (p : Precision) (s : State), s.config.fracDigits = .exact →
    encaSupports p (operand p s) →
    exec (Instr.ofOp .enca p) s = .next (afterStr s (strOf (operand p s))) ∧
      exec (Instr.ofOp .enca p) s = exec (Instr.ofOp .encd p) s

/-- The closed form of the arithmetic encoder on normal patterns, for every number of fractional digits
`≥ W` (R85). -/
def Obligations.EncaClosedFormForAnyDigits : Prop :=
  ∀ (p : Precision) (digits : Nat) (x : BitVec p.width), p.width ≤ digits → normalPattern p x →
    encodeFields p digits (patternFields p x) = .ok (closedForm p digits x)

/-- `ENCA` completes on every normal pattern at both values of `FRAC_DIGITS`, with the closed form
(R85). -/
def Obligations.EncaCompletesWithClosedForm : Prop :=
  ∀ (p : Precision) (s : State), normalPattern p (operand p s) →
    exec (Instr.ofOp .enca p) s =
      .next (afterStr s
        (closedForm p
          (match s.config.fracDigits with
            | .exact => p.bias + p.fracBits - 1
            | .width => p.width)
          (operand p s)))

/-- With the alternative `FRAC_DIGITS = W` the strategies agree on a normal pattern exactly when
`E0 ≥ −W` and the `k` low fraction bits are zero (R85, R89). -/
def Obligations.EncaAlternativeAgreesExactlyWhen : Prop :=
  ∀ (p : Precision) (s : State), s.config.fracDigits = .width →
    normalPattern p (operand p s) →
    (exec (Instr.ofOp .enca p) s = exec (Instr.ofOp .encd p) s ↔
      -(p.width : Int) ≤ trueExp p (operand p s) ∧
        2 ^ clearedBits p p.width (operand p s) ∣ fracField p (operand p s))

/-- `RANGE` is raised exactly outside `1 .. 2^EB − 2`, and never wrapped or saturated (R81); inside,
steps 5 to 7 assemble sign, exponent field and fitted mantissa (R82, R83). -/
def Obligations.AssembleRaisesRangeOutsideTheField : Prop :=
  ∀ (p : Precision) (sg : Bool) (E : Int) (M : Str),
    (E + p.bias < 1 ∨ 2 ^ p.expBits - 2 < E + p.bias → assembleString p sg E M = .error .range) ∧
    (1 ≤ E + p.bias → E + p.bias ≤ 2 ^ p.expBits - 2 → ∃ u, assembleString p sg E M = .ok u ∧
      u.length = p.width ∧ u[0]? = some (if sg then Ch.one else Ch.zero) ∧
      (uval ((u.drop 1).take p.expBits) : Int) = E + p.bias ∧
      ∀ i < p.fracBits, u[1 + p.expBits + i]? = some (M[i]?.getD Ch.zero))

/-- No operand raises `RANGE` (R81, R96), whatever the configuration. -/
def Obligations.EncaNeverRaisesRange : Prop :=
  ∀ (p : Precision) (s : State), ∃ t, exec (Instr.ofOp .enca p) s = .next t ∧ t.status ≠ some 5#3

/-- Step 2: the integer digits denote `I`, have no leading zero, are empty for 0, and are at most
`BIAS + 1` (R78). -/
def Obligations.IntegerDigitsDenoteTheInteger : Prop :=
  ∀ (p : Precision) (I : Nat), I < 2 ^ (p.bias + 1) →
    bitString (integerDigits p I) ∧ uval (integerDigits p I) = I ∧
    (I = 0 → integerDigits p I = []) ∧
    (0 < I → (integerDigits p I)[0]? = some Ch.one) ∧
    (integerDigits p I).length ≤ p.bias + 1

/-- Step 3: exactly `n` digits, which denote the fraction truncated to `n` binary places (R79). -/
def Obligations.FractionDigitsTruncateTheFraction : Prop :=
  ∀ den n r : Nat, r < den →
    (fractionDigits den n r).length = n ∧ bitString (fractionDigits den n r) ∧
    (uval (fractionDigits den n r) : ℚ) ≤ (r : ℚ) / den * 2 ^ n ∧
    (r : ℚ) / den * 2 ^ n < uval (fractionDigits den n r) + 1

/-- Step 4: the leading `'1'` of the joined digits at position `k` gives `E = len(ID) − k − 1` and the
digits after it; without one there is no exponent (R80). -/
def Obligations.NormalizeFindsTheLeadingOne : Prop :=
  ∀ ID FD : Str,
    (∀ (z M : Str), Ch.one ∉ z → ID ++ FD = z ++ Ch.one :: M →
      normalizeDigits ID FD = some ((ID.length : Int) - z.length - 1, M)) ∧
    (Ch.one ∉ ID ++ FD → normalizeDigits ID FD = none)

/-- The value the model computes with is the value formula of R75. -/
def Obligations.NormalValueIsTheFormula : Prop :=
  ∀ (p : Precision) (x : BitVec p.width),
    rationalOf (normalValue p (patternFields p x)) = formulaValue p x

/-- Distinct normal patterns have distinct values, as the model computes them (R75, which the spec marks
as derived). -/
def Obligations.NormalValuesAreDistinct : Prop :=
  ∀ (p : Precision) (x y : BitVec p.width), normalPattern p x → normalPattern p y →
    rationalOf (normalValue p (patternFields p x)) = rationalOf (normalValue p (patternFields p y)) →
    x = y

/-! ## The arithmetic strategy: decoder and laws -/

/-- `DECA` completes on every bit string of the normal class, with the pattern `DECD` gives (R88, R89,
which the spec derives from R75, R85, R87). -/
def Obligations.DecaAgreesWithDecd : Prop :=
  ∀ (p : Precision) (s : State), bitString s.strIn → decaSupports p s.strIn →
    ∃ y, exec (Instr.ofOp .deca p) s = .next (afterVal s y) ∧
      exec (Instr.ofOp .decd p) s = .next (afterVal s y) ∧
      ∀ k < 64, y.getLsbD k = (decide (k < p.width) && oneAt s.strIn (p.width - 1 - k))

/-- `DECA.S` and `DECA.D`: a malformed string raises `MALFORMED` (3), an exponent field all zero or all
one `UNSUPPORTED` (4), and on every other string the result is the normal pattern whose value is the
formula's on the string's fields (R86, R87). -/
def Obligations.DecaEvaluatesTheFormula : Prop :=
  ∀ (p : Precision) (s : State),
    (¬ bitString s.strIn → exec (Instr.ofOp .deca p) s = .next (afterStatus s 3#3)) ∧
    (bitString s.strIn → expAllZero p s.strIn ∨ expAllOne p s.strIn →
      exec (Instr.ofOp .deca p) s = .next (afterStatus s 4#3)) ∧
    (bitString s.strIn → decaSupports p s.strIn →
      ∃ y : BitVec p.width,
        exec (Instr.ofOp .deca p) s = .next (afterVal s (y.setWidth 64)) ∧ normalPattern p y ∧
        formulaValue p y =
          (-1) ^ (oneAt s.strIn 0).toNat *
            (1 + ∑ i ∈ Finset.range p.fracBits,
              ((oneAt s.strIn (1 + p.expBits + i)).toNat : ℚ) / 2 ^ (i + 1)) *
            (2 : ℚ) ^ ((∑ i ∈ Finset.range p.expBits,
              ((oneAt s.strIn (1 + i)).toNat : ℤ) * 2 ^ (p.expBits - 1 - i)) - (p.bias : ℤ)))

/-- Round trip (arithmetic): with `FRAC_EXACT`, decoding what was encoded gives every normal pattern
back (R89). -/
def Obligations.ArithmeticRoundTrip : Prop :=
  ∀ (p : Precision) (s : State), s.config.fracDigits = .exact → normalPattern p (operand p s) →
    ∃ t u t', exec (Instr.ofOp .enca p) s = .next t ∧ t.strOut = some u ∧
      exec (Instr.ofOp .deca p) { t with strIn := u } = .next t' ∧
      t'.valOut = some ((operand p s).setWidth 64)

/-- `encode(decode(u)) == u` for every `W`-character string of a normal value, with either encoder and
either decoder (R89). -/
def Obligations.EncodeOfDecodeIsTheString : Prop :=
  ∀ (p : Precision) (dec enc : Op) (s : State), dec = .decd ∨ dec = .deca →
    enc = .encd ∨ enc = .enca → s.config.fracDigits = .exact → s.strIn.length = p.width →
    bitString s.strIn → decaSupports p s.strIn →
    ∃ t y t', exec (Instr.ofOp dec p) s = .next t ∧ t.valOut = some y ∧
      exec (Instr.ofOp enc p) { t with valIn := y } = .next t' ∧ t'.strOut = some s.strIn

/-! ## The sub-units -/

/-- `XTRT.S` and `XTRT.D` write the sign, exponent and fraction fields of the fitted string, zero
extended, of every class; a malformed string raises `MALFORMED` (R68). -/
def Obligations.XtrtWritesTheFields : Prop :=
  ∀ (p : Precision) (s : State),
    (bitString s.strIn →
      ∃ sg e F, exec (Instr.ofOp .xtrt p) s = .next (afterFields s sg e F) ∧
        sg.getLsbD 0 = oneAt s.strIn 0 ∧
        (∀ k < 11, e.getLsbD k = (decide (k < p.expBits) && oneAt s.strIn (p.expBits - k))) ∧
        ∀ k < 52, F.getLsbD k = (decide (k < p.fracBits) && oneAt s.strIn (p.width - 1 - k))) ∧
    (¬ bitString s.strIn → exec (Instr.ofOp .xtrt p) s = .next (afterStatus s 3#3))

/-- `RCON.S` and `RCON.D` write `2^FB × (1 + f)` with `f = Σ bit_i × 2^(−i−1)`, exactly and of every
class; a malformed string raises `MALFORMED` (R66, R69). -/
def Obligations.RconWritesTheSignificand : Prop :=
  ∀ (p : Precision) (s : State),
    (bitString s.strIn →
      ∃ n, exec (Instr.ofOp .rcon p) s = .next (afterSig s n) ∧
        (n.toNat : ℚ) / 2 ^ p.fracBits =
          1 + ∑ i ∈ Finset.range p.fracBits,
            ((oneAt s.strIn (1 + p.expBits + i)).toNat : ℚ) / 2 ^ (i + 1)) ∧
    (¬ bitString s.strIn → exec (Instr.ofOp .rcon p) s = .next (afterStatus s 3#3))

/-- The fields of a pattern's string are the pattern's fields (R65): `XTRT` of what `ENCD` wrote. -/
def Obligations.XtrtOfEncdGivesThePatternFields : Prop :=
  ∀ (p : Precision) (s : State), ∃ t u sg e F,
    exec (Instr.ofOp .encd p) s = .next t ∧ t.strOut = some u ∧
    exec (Instr.ofOp .xtrt p) { t with strIn := u } =
      .next (afterFields { s with strIn := u } sg e F) ∧
    sg = BitVec.ofBool (signBit p (operand p s)) ∧ e.toNat = expField p (operand p s) ∧
    F.toNat = fracField p (operand p s)

/-! ## The host at the ports -/

/-- The host chains a result into the next transaction's input itself, and only where the port holds a
value (R111). That an operand leaves the other input port alone is the model's choice (log entry 12). -/
def Obligations.HostCopiesAResultIntoAnInput : Prop :=
  ∀ (s : State) (cmd : BitVec 8),
    (∀ u, s.valid.getLsbD 1 = true → s.strOut = some u →
      hostCommand { cmd := cmd, operand := .previousStrOut } s =
        step { s with cmd := cmd, strIn := u }) ∧
    (∀ y, s.valid.getLsbD 0 = true → s.valOut = some y →
      hostCommand { cmd := cmd, operand := .previousValOut } s =
        step { s with cmd := cmd, valIn := y }) ∧
    (s.valid.getLsbD 1 = false →
      hostCommand { cmd := cmd, operand := .previousStrOut } s = .fault (.noValue .strOut)) ∧
    (s.valid.getLsbD 0 = false →
      hostCommand { cmd := cmd, operand := .previousValOut } s = .fault (.noValue .valOut))

/-- The host wrapper: `little` places pattern bits `[8k+7 : 8k]` at address `a + k`, `big` at address
`a + n − 1 − k` (R44, which the spec marks as general knowledge; log entry 11). -/
def Obligations.WrapperPlacesBytes : Prop :=
  ∀ (p : Precision) (a : Nat) (v : BitVec 64) (k : Nat), k < p.width / 8 →
    byteOf (scatterBytes .little p a v) (a + k) = some (v.extractLsb' (8 * k) 8) ∧
    byteOf (scatterBytes .big p a v) (a + (p.width / 8 - 1 - k)) = some (v.extractLsb' (8 * k) 8)

/-- Assembling what was scattered with the same `ENDIANNESS` gives the pattern back, so a wrapper done
correctly hides the byte order (R44). That the bits above `W`, on which R44 is silent, come back as 0 is
the model's choice (log entry 11). -/
def Obligations.WrapperRoundTrip : Prop :=
  ∀ (e : Endianness) (p : Precision) (a : Nat) (v : BitVec 64),
    assembleBytes e p (scatterBytes e p a v) a = some ((v.setWidth p.width).setWidth 64)
end

