-- ==== Sys2Proof/Laws/Strings.lean ====
section
/-! SUPPORT. What the string primitives of spec/00_scope.md R15 and spec/40_fields.md R61 to R65 give: lengths,
alphabets, and that `bin` and `uval` undo each other. -/

namespace Sys2Proof

@[simp] theorem Ch.isBit_ofBool (b : Bool) : (Ch.ofBool b).isBit = true := by cases b <;> rfl

@[simp] theorem Ch.digit_ofBool (b : Bool) : (Ch.ofBool b).digit = b.toNat := by cases b <;> rfl

@[simp] theorem Ch.ofBool_eq_one (b : Bool) : Ch.ofBool b = Ch.one ↔ b = true := by
  cases b <;> simp [Ch.ofBool]

theorem Ch.isBit_iff (c : Ch) : c.isBit = true ↔ c = .zero ∨ c = .one := by
  cases c <;> simp [Ch.isBit]

/-- A character of the alphabet is the character of its own digit. -/
theorem Ch.ofBool_digit {c : Ch} (h : c.isBit = true) : Ch.ofBool (c.digit == 1) = c := by
  cases c <;> simp_all [Ch.isBit, Ch.digit, Ch.ofBool]

theorem Ch.digit_le_one (c : Ch) : c.digit ≤ 1 := by cases c <;> simp [Ch.digit]

theorem Precision.width_eq (p : Precision) : p.width = 1 + p.expBits + p.fracBits := by
  cases p <;> rfl

theorem Precision.expMax_eq (p : Precision) : p.expMax = 2 * p.bias + 1 := by cases p <;> rfl

theorem Precision.fracBits_pos (p : Precision) : 0 < p.fracBits := by cases p <;> decide

theorem Precision.bias_pos (p : Precision) : 0 < p.bias := by cases p <;> decide

theorem Precision.width_le (p : Precision) : p.width ≤ 64 := by cases p <;> decide

/-- Both values of `FRAC_DIGITS` are at least `W` (R10). -/
theorem FracDigits.width_le_count (c : FracDigits) (p : Precision) : p.width ≤ c.count p := by
  cases c <;> cases p <;> decide

namespace Machine

@[simp] theorem bin_length (N n : Nat) : (bin N n).length = N := by
  induction N with
  | zero => rfl
  | succ N ih => simp [bin, ih]

@[simp] theorem alphabetOk_bin (N n : Nat) : alphabetOk (bin N n) = true := by
  induction N with
  | zero => rfl
  | succ N ih => simpa [alphabetOk, bin] using ih

/-- The `i`-th character of `bin N n` is bit `N − 1 − i` of `n` (R15). -/
theorem bin_getElem? {N n i : Nat} (h : i < N) :
    (bin N n)[i]? = some (Ch.ofBool (n.testBit (N - 1 - i))) := by
  induction N generalizing i with
  | zero => omega
  | succ N ih =>
    cases i with
    | zero => simp [bin]
    | succ i =>
      have h1 : N + 1 - 1 - (i + 1) = N - 1 - i := by omega
      simp only [bin, List.getElem?_cons_succ, ih (Nat.lt_of_succ_lt_succ h), h1]

/-- `bin` reads only the low bits. -/
theorem bin_mod (N n : Nat) : bin N (n % 2 ^ N) = bin N n := by
  apply List.ext_getElem?
  intro i
  by_cases h : i < N
  · rw [bin_getElem? h, bin_getElem? h, Nat.testBit_mod_two_pow]
    simp [show N - 1 - i < N by omega]
  · simp [h]

/-- Two adjacent fields are one longer field (R62). -/
theorem bin_append (A B n : Nat) : bin A (n / 2 ^ B) ++ bin B n = bin (A + B) n := by
  apply List.ext_getElem?
  intro i
  by_cases hA : i < A
  · rw [List.getElem?_append_left (by simpa using hA), bin_getElem? hA,
      bin_getElem? (by omega), Nat.testBit_div_two_pow]
    congr 3; omega
  · by_cases hB : i < A + B
    · rw [List.getElem?_append_right (by simp; omega), bin_length, bin_getElem? (by omega),
        bin_getElem? hB]
      congr 3; omega
    · simp [hB]

@[simp] theorem uval_nil : uval [] = 0 := rfl

theorem uval_foldl (t : Str) (n : Nat) :
    t.foldl (fun n c => 2 * n + c.digit) n = n * 2 ^ t.length + uval t := by
  induction t generalizing n with
  | nil => simp
  | cons c t ih =>
    simp only [uval, List.foldl_cons, List.length_cons]
    rw [ih, ih (2 * 0 + c.digit)]
    ring

theorem uval_cons (c : Ch) (t : Str) : uval (c :: t) = c.digit * 2 ^ t.length + uval t := by
  simpa [uval] using uval_foldl t c.digit

theorem uval_append (t u : Str) : uval (t ++ u) = uval t * 2 ^ u.length + uval u := by
  simpa [uval] using uval_foldl u (uval t)

theorem uval_lt (t : Str) : uval t < 2 ^ t.length := by
  induction t with
  | nil => simp
  | cons c t ih =>
    rw [uval_cons, List.length_cons, pow_succ]
    have := Nat.mul_le_mul_right (2 ^ t.length) c.digit_le_one
    omega

/-- `uval` undoes `bin` (R15). -/
@[simp] theorem uval_bin (N n : Nat) : uval (bin N n) = n % 2 ^ N := by
  induction N with
  | zero => simp [bin, Nat.mod_one]
  | succ N ih =>
    rw [bin, uval_cons, bin_length, ih, Ch.digit_ofBool, Nat.testBit_eq_decide_div_mod_eq,
      pow_succ, Nat.mod_mul]
    rcases Nat.mod_two_eq_zero_or_one (n / 2 ^ N) with h | h <;> (simp [h]; try omega)

/-- `bin` undoes `uval` on the alphabet (R62). -/
theorem bin_uval {t : Str} (h : alphabetOk t = true) : bin t.length (uval t) = t := by
  induction t with
  | nil => rfl
  | cons c t ih =>
    simp only [alphabetOk, List.all_cons, Bool.and_eq_true] at h
    have hlt := uval_lt t
    rw [uval_cons, List.length_cons, bin]
    congr 1
    · rw [← Ch.ofBool_digit h.1, Nat.testBit_eq_decide_div_mod_eq]
      have hd := c.digit_le_one
      rw [mul_comm, Nat.mul_add_div (by positivity), Nat.div_eq_of_lt hlt]
      interval_cases hc : c.digit <;> simp [Ch.digit, Ch.ofBool]
    · rw [← bin_mod, mul_comm, Nat.mul_add_mod, bin_mod]
      exact ih h.2

@[simp] theorem zeros_length (N : Nat) : (zeros N).length = N := by simp [zeros]

@[simp] theorem alphabetOk_zeros (N : Nat) : alphabetOk (zeros N) = true := by
  simp [alphabetOk, zeros, Ch.isBit]

theorem one_not_mem_zeros (N : Nat) : Ch.one ∉ zeros N := by
  simp [zeros, List.mem_replicate]

theorem bin_zero (N : Nat) : bin N 0 = zeros N := by
  induction N with
  | zero => rfl
  | succ N ih => simp [bin, ih, zeros, Ch.ofBool, List.replicate_succ]

theorem alphabetOk_append (t u : Str) : alphabetOk (t ++ u) = (alphabetOk t && alphabetOk u) := by
  simp [alphabetOk]

theorem alphabetOk_iff (t : Str) : alphabetOk t = true ↔ ∀ c ∈ t, c = .zero ∨ c = .one := by
  simp [alphabetOk, Ch.isBit_iff]

theorem fit_eq_take (W : Nat) (t : Str) : fit W t = t.take W ++ zeros (W - t.length) := by
  unfold fit slice
  split
  · rw [Nat.sub_eq_zero_of_le ‹_›]; simp [zeros]
  · rw [List.take_of_length_le (by omega)]

/-- A fitted string has exactly the width (R63). -/
@[simp] theorem fit_length (W : Nat) (t : Str) : (fit W t).length = W := by
  rw [fit_eq_take]; simp; omega

theorem alphabetOk_fit {W : Nat} {t : Str} (h : alphabetOk t = true) :
    alphabetOk (fit W t) = true := by
  rw [fit_eq_take, alphabetOk_append, alphabetOk_zeros, Bool.and_true]
  simp only [alphabetOk, List.all_eq_true] at h ⊢
  exact fun c hc => h c (List.mem_of_mem_take hc)

theorem fit_of_length {W : Nat} {t : Str} (h : t.length = W) : fit W t = t := by
  rw [fit_eq_take, List.take_of_length_le (by omega), h]; simp [zeros]

/-- A position of a fitted string holds the input's character, or `'0'` past its end (R63). -/
theorem fit_getElem? {W i : Nat} (t : Str) (h : i < W) :
    (fit W t)[i]? = some (t[i]?.getD Ch.zero) := by
  rw [fit_eq_take]
  by_cases hi : i < t.length
  · rw [List.getElem?_append_left (by simp; omega), List.getElem?_take_of_lt h]
    simp [hi]
  · have h1 : t.take W = t := List.take_of_length_le (by omega)
    rw [h1, List.getElem?_append_right (by omega), List.getElem?_eq_none (by omega : t.length ≤ i)]
    simp [zeros, List.getElem?_replicate]; omega

end Machine

end Sys2Proof
end

