-- ==== Sys2Proof/Laws/Fields.lean ====
section
/-! SUPPORT. One lemma per shared piece of spec/40_fields.md: the fields of a pattern as numbers, the string of
those fields, the extractor on a fitted string, and the storage fill of `DECD`. -/

namespace Sys2Proof.Machine

/-- The low `W(p)` bits of `VAL_IN` (R22). -/
theorem patternOperand_eq (p : Precision) (v : BitVec 64) :
    patternOperand p v = v.setWidth p.width := by
  apply BitVec.eq_of_getLsbD_eq
  intro i hi
  simp [patternOperand, hi]

@[simp] theorem patternFields_exp (p : Precision) (x : BitVec p.width) :
    (patternFields p x).exp = x.toNat / 2 ^ p.fracBits % 2 ^ p.expBits := by
  simp [patternFields, BitVec.extractLsb'_toNat, Nat.shiftRight_eq_div_pow]

@[simp] theorem patternFields_frac (p : Precision) (x : BitVec p.width) :
    (patternFields p x).frac = x.toNat % 2 ^ p.fracBits := by
  simp [patternFields, BitVec.extractLsb'_toNat]

@[simp] theorem patternFields_sign (p : Precision) (x : BitVec p.width) :
    (patternFields p x).sign = x.toNat.testBit (p.width - 1) := rfl

theorem patternFields_frac_lt (p : Precision) (x : BitVec p.width) :
    (patternFields p x).frac < 2 ^ p.fracBits := by
  rw [patternFields_frac]; exact Nat.mod_lt _ (by positivity)

theorem patternFields_exp_lt (p : Precision) (x : BitVec p.width) :
    (patternFields p x).exp < 2 ^ p.expBits := by
  rw [patternFields_exp]; exact Nat.mod_lt _ (by positivity)

/-- The three fields, joined, are the whole pattern in binary (R61, R62). -/
theorem fieldString_patternFields (p : Precision) (x : BitVec p.width) :
    fieldString p (patternFields p x) = bin p.width x.toNat := by
  unfold fieldString
  rw [patternFields_exp, patternFields_frac, patternFields_sign, bin_mod, bin_mod]
  have h1 : bin 1 (x.toNat.testBit (p.width - 1)).toNat = bin 1 (x.toNat / 2 ^ (p.width - 1)) := by
    simp [bin, Nat.testBit_eq_decide_div_mod_eq]
    rcases Nat.mod_two_eq_zero_or_one (x.toNat / 2 ^ (p.width - 1)) with h | h <;> simp [h]
  have h2 : x.toNat / 2 ^ (p.width - 1) = x.toNat / 2 ^ p.fracBits / 2 ^ p.expBits := by
    rw [Nat.div_div_eq_div_mul, ← pow_add]; congr 2; have := p.width_eq; omega
  rw [h1, h2, bin_append, bin_append, ← p.width_eq]

/-- The pattern of a FieldTriple whose fields fit, as a number (R61). -/
theorem fieldsPattern_toNat (p : Precision) {f : FieldTriple} (he : f.exp < 2 ^ p.expBits)
    (hF : f.frac < 2 ^ p.fracBits) :
    (fieldsPattern p f).toNat =
      f.sign.toNat * 2 ^ (p.width - 1) + f.exp * 2 ^ p.fracBits + f.frac := by
  rw [fieldsPattern, BitVec.toNat_ofNat, Nat.mod_eq_of_lt]
  have h1 : p.width = (p.expBits + p.fracBits) + 1 := by have := p.width_eq; omega
  have h2 : p.width - 1 = p.expBits + p.fracBits := by omega
  have h3 : f.exp * 2 ^ p.fracBits + f.frac < 2 ^ (p.expBits + p.fracBits) := by
    rw [pow_add]; nlinarith [Nat.succ_le_of_lt he, Nat.two_pow_pos p.fracBits]
  have h4 := Nat.mul_le_mul_right (2 ^ (p.expBits + p.fracBits)) (Bool.toNat_le f.sign)
  rw [h2, h1, pow_succ]; omega

/-- The fields of `{s, e, F}` are `s`, `e` and `F` (R61). -/
theorem patternFields_fieldsPattern (p : Precision) {f : FieldTriple} (he : f.exp < 2 ^ p.expBits)
    (hF : f.frac < 2 ^ p.fracBits) : patternFields p (fieldsPattern p f) = f := by
  have hn := fieldsPattern_toNat p he hF
  have hw : p.width - 1 = p.expBits + p.fracBits := by have := p.width_eq; omega
  have hlow : f.exp * 2 ^ p.fracBits + f.frac < 2 ^ (p.expBits + p.fracBits) := by
    rw [pow_add]; nlinarith [Nat.succ_le_of_lt he, Nat.two_pow_pos p.fracBits]
  have hq : (fieldsPattern p f).toNat / 2 ^ (p.expBits + p.fracBits) = f.sign.toNat := by
    rw [hn, hw, add_assoc, mul_comm, Nat.mul_add_div (by positivity), Nat.div_eq_of_lt hlow,
      add_zero]
  have he2 : (fieldsPattern p f).toNat / 2 ^ p.fracBits % 2 ^ p.expBits = f.exp := by
    have : f.sign.toNat * 2 ^ (p.width - 1) + f.exp * 2 ^ p.fracBits + f.frac
        = 2 ^ p.fracBits * (2 ^ p.expBits * f.sign.toNat + f.exp) + f.frac := by
      rw [hw, pow_add]; ring
    rw [hn, this, Nat.mul_add_div (by positivity), Nat.div_eq_of_lt hF, add_zero,
      Nat.mul_add_mod, Nat.mod_eq_of_lt he]
  have hF2 : (fieldsPattern p f).toNat % 2 ^ p.fracBits = f.frac := by
    have : f.sign.toNat * 2 ^ (p.width - 1) + f.exp * 2 ^ p.fracBits + f.frac
        = 2 ^ p.fracBits * (2 ^ p.expBits * f.sign.toNat + f.exp) + f.frac := by
      rw [hw, pow_add]; ring
    rw [hn, this, Nat.mul_add_mod, Nat.mod_eq_of_lt hF]
  cases f with
  | mk sg e F =>
    have hs : (patternFields p (fieldsPattern p ⟨sg, e, F⟩)).sign = sg := by
      rw [patternFields_sign, hw, Nat.testBit_eq_decide_div_mod_eq, hq]; cases sg <;> rfl
    have hx := patternFields_exp p (fieldsPattern p ⟨sg, e, F⟩)
    have hf := patternFields_frac p (fieldsPattern p ⟨sg, e, F⟩)
    rw [he2] at hx; rw [hF2] at hf
    cases hp : patternFields p (fieldsPattern p ⟨sg, e, F⟩)
    simp_all

/-- A pattern is `{s, e, F}` of its own fields (R61). -/
theorem fieldsPattern_patternFields (p : Precision) (x : BitVec p.width) :
    fieldsPattern p (patternFields p x) = x := by
  apply BitVec.eq_of_toNat_eq
  rw [fieldsPattern_toNat p (patternFields_exp_lt p x) (patternFields_frac_lt p x)]
  have h := uval_bin p.width x.toNat
  rw [← fieldString_patternFields] at h
  have hb := x.isLt
  rw [Nat.mod_eq_of_lt hb] at h
  rw [← h]
  simp only [fieldString, uval_append, uval_bin, bin_length]
  rw [Nat.mod_eq_of_lt (patternFields_exp_lt p x), Nat.mod_eq_of_lt (patternFields_frac_lt p x)]
  have hw : p.width - 1 = p.expBits + p.fracBits := by have := p.width_eq; omega
  have hs : (patternFields p x).sign.toNat % 2 ^ 1 = (patternFields p x).sign.toNat := by
    cases (patternFields p x).sign <;> rfl
  rw [hs, hw, pow_add]; ring

/-- The extractor on a `W`-character string gives the fields of the pattern it denotes (R65). -/
theorem stringFields_eq (p : Precision) {u : Str} (hl : u.length = p.width)
    (hb : alphabetOk u = true) :
    stringFields p u = patternFields p (BitVec.ofNat p.width (uval u)) := by
  obtain ⟨a, b, c, rfl, ha, hbl, hc⟩ : ∃ a b c : Str, u = a ++ b ++ c ∧ a.length = 1 ∧
      b.length = p.expBits ∧ c.length = p.fracBits := by
    have hw := p.width_eq
    refine ⟨u.take 1, (u.drop 1).take p.expBits, (u.drop 1).drop p.expBits, ?_, ?_, ?_, ?_⟩
    · rw [List.append_assoc, List.take_append_drop, List.take_append_drop]
    · rw [List.length_take]; omega
    · rw [List.length_take, List.length_drop]; omega
    · rw [List.length_drop, List.length_drop]; omega
  have hw := p.width_eq
  have s0 : slice (a ++ b ++ c) 0 1 = a := by
    simp [slice, List.append_assoc, ha]
  have s1 : slice (a ++ b ++ c) 1 (1 + p.expBits) = b := by
    rw [slice, List.take_append_of_le_length (by simp; omega),
      List.take_of_length_le (by simp; omega), ← ha, List.drop_left]
  have s2 : slice (a ++ b ++ c) (1 + p.expBits) p.width = c := by
    rw [slice, List.take_of_length_le (by simp; omega), ← ha, ← hbl, ← List.length_append,
      List.drop_left]
  have hlt := uval_lt (a ++ b ++ c)
  rw [hl] at hlt
  have hua := uval_lt a; have hub := uval_lt b; have huc := uval_lt c
  rw [ha] at hua; rw [hbl] at hub; rw [hc] at huc
  have hu : uval (a ++ b ++ c) = (uval a == 1).toNat * 2 ^ (p.width - 1) + uval b * 2 ^ p.fracBits
      + uval c := by
    rw [uval_append, uval_append, hbl, hc, show p.width - 1 = p.expBits + p.fracBits by omega,
      pow_add]
    have : (uval a == 1).toNat = uval a := by
      have : uval a = 0 ∨ uval a = 1 := by omega
      rcases this with h | h <;> simp [h]
    rw [this]; ring
  have : BitVec.ofNat p.width (uval (a ++ b ++ c))
      = fieldsPattern p ⟨uval a == 1, uval b, uval c⟩ := by
    rw [fieldsPattern, hu]
  rw [this, patternFields_fieldsPattern p hub huc, stringFields, s0, s1, s2]

theorem setBit_getLsbD {W : Nat} (y : BitVec W) (k j : Nat) (b : Bool) (hk : k < W) :
    (setBit y k b).getLsbD j = if j = k then b else y.getLsbD j := by
  unfold setBit
  by_cases hj : j = k
  · subst hj; cases b <;> simp [hk]
  · by_cases hjW : j < W
    · cases b <;> simp [hj, hjW]
    · cases b <;> simp [hj, BitVec.getLsbD_of_ge _ _ (Nat.le_of_not_lt hjW)]

/-- The storage fill, bit by bit (R73): bit `j` below `k` takes character `k − 1 − j` where the string
has one, and every other bit keeps its value. -/
theorem fillStorage_getLsbD {W : Nat} (k : Nat) (t : Str) (y : BitVec W) (j : Nat) (hk : k ≤ W) :
    (fillStorage k t y).getLsbD j =
      if j < k then
        match t[k - 1 - j]? with
        | some c => c == Ch.one
        | none => y.getLsbD j
      else y.getLsbD j := by
  induction k generalizing t y with
  | zero => simp [fillStorage]
  | succ k ih =>
    cases t with
    | nil => simp [fillStorage]
    | cons c t =>
      rw [fillStorage, ih _ _ (by omega), setBit_getLsbD _ _ _ _ (by omega)]
      by_cases h1 : j < k
      · have h2 : k + 1 - 1 - j = (k - 1 - j) + 1 := by omega
        have h3 : j ≠ k := by omega
        have h4 : j < k + 1 := by omega
        rw [if_pos h1, if_pos h4, h2, List.getElem?_cons_succ, if_neg h3]
      · by_cases h3 : j = k
        · subst h3; simp
        · rw [if_neg h1, if_neg h3, if_neg (by omega)]

/-- What `DECD` stores is the pattern of the fitted string, `pat_W(fit_W(t))` (R73). -/
theorem fillStorage_eq (W : Nat) {t : Str} (h : alphabetOk t = true) :
    fillStorage W t (0#W) = BitVec.ofNat W (uval (fit W t)) := by
  apply BitVec.eq_of_getLsbD_eq
  intro j hj
  have hf : fit W t = bin W (uval (fit W t)) := by
    conv_lhs => rw [← bin_uval (alphabetOk_fit (W := W) h), fit_length]
  have hc := fit_getElem? t (show W - 1 - j < W by omega)
  rw [hf, bin_getElem? (by omega), show W - 1 - (W - 1 - j) = j by omega, Option.some_inj] at hc
  have hr : (BitVec.ofNat W (uval (fit W t))).getLsbD j = (uval (fit W t)).testBit j := by
    rw [BitVec.getLsbD_ofNat]; simp only [hj, decide_true, Bool.true_and]
  rw [fillStorage_getLsbD _ _ _ _ le_rfl, if_pos hj, hr]
  cases ht : t[W - 1 - j]? with
  | none =>
    rw [ht, Option.getD_none] at hc
    cases hb : (uval (fit W t)).testBit j
    · simp
    · rw [hb] at hc; exact absurd hc (by decide)
  | some c =>
    rw [ht, Option.getD_some] at hc
    rw [← hc]
    cases (uval (fit W t)).testBit j <;> rfl

end Sys2Proof.Machine
end

