-- ==== Sys2Proof/Laws/State.lean ====
section
/-! SUPPORT. One lemma per field per update of the state, true by unfolding the update once, so that no
later proof unfolds a record update. -/

namespace Sys2Proof.Machine

@[simp] theorem State.clearResults_cmd (s : State) : (s.clearResults).cmd = s.cmd := rfl
@[simp] theorem State.clearResults_valIn (s : State) : (s.clearResults).valIn = s.valIn := rfl
@[simp] theorem State.clearResults_strIn (s : State) : (s.clearResults).strIn = s.strIn := rfl
@[simp] theorem State.clearResults_valOut (s : State) : (s.clearResults).valOut = none := rfl
@[simp] theorem State.clearResults_strOut (s : State) : (s.clearResults).strOut = none := rfl
@[simp] theorem State.clearResults_signOut (s : State) : (s.clearResults).signOut = none := rfl
@[simp] theorem State.clearResults_expOut (s : State) : (s.clearResults).expOut = none := rfl
@[simp] theorem State.clearResults_fracOut (s : State) : (s.clearResults).fracOut = none := rfl
@[simp] theorem State.clearResults_sigOut (s : State) : (s.clearResults).sigOut = none := rfl
@[simp] theorem State.clearResults_status (s : State) : (s.clearResults).status = s.status := rfl
@[simp] theorem State.clearResults_valid (s : State) : (s.clearResults).valid = validNone := rfl
@[simp] theorem State.clearResults_config (s : State) : (s.clearResults).config = s.config := rfl

@[simp] theorem State.raised_cmd (s : State) (c : Status) : (s.raised c).cmd = s.cmd := rfl
@[simp] theorem State.raised_valIn (s : State) (c : Status) : (s.raised c).valIn = s.valIn := rfl
@[simp] theorem State.raised_strIn (s : State) (c : Status) : (s.raised c).strIn = s.strIn := rfl
@[simp] theorem State.raised_valOut (s : State) (c : Status) : (s.raised c).valOut = none := rfl
@[simp] theorem State.raised_strOut (s : State) (c : Status) : (s.raised c).strOut = none := rfl
@[simp] theorem State.raised_signOut (s : State) (c : Status) : (s.raised c).signOut = none := rfl
@[simp] theorem State.raised_expOut (s : State) (c : Status) : (s.raised c).expOut = none := rfl
@[simp] theorem State.raised_fracOut (s : State) (c : Status) : (s.raised c).fracOut = none := rfl
@[simp] theorem State.raised_sigOut (s : State) (c : Status) : (s.raised c).sigOut = none := rfl
@[simp] theorem State.raised_status (s : State) (c : Status) : (s.raised c).status = some c.code := rfl
@[simp] theorem State.raised_valid (s : State) (c : Status) : (s.raised c).valid = validNone := rfl
@[simp] theorem State.raised_config (s : State) (c : Status) : (s.raised c).config = s.config := rfl

@[simp] theorem State.withVal_cmd (s : State) (y : BitVec 64) : (s.withVal y).cmd = s.cmd := rfl
@[simp] theorem State.withVal_valIn (s : State) (y : BitVec 64) : (s.withVal y).valIn = s.valIn := rfl
@[simp] theorem State.withVal_strIn (s : State) (y : BitVec 64) : (s.withVal y).strIn = s.strIn := rfl
@[simp] theorem State.withVal_valOut (s : State) (y : BitVec 64) : (s.withVal y).valOut = some y := rfl
@[simp] theorem State.withVal_strOut (s : State) (y : BitVec 64) : (s.withVal y).strOut = none := rfl
@[simp] theorem State.withVal_signOut (s : State) (y : BitVec 64) : (s.withVal y).signOut = none := rfl
@[simp] theorem State.withVal_expOut (s : State) (y : BitVec 64) : (s.withVal y).expOut = none := rfl
@[simp] theorem State.withVal_fracOut (s : State) (y : BitVec 64) : (s.withVal y).fracOut = none := rfl
@[simp] theorem State.withVal_sigOut (s : State) (y : BitVec 64) : (s.withVal y).sigOut = none := rfl
@[simp] theorem State.withVal_status (s : State) (y : BitVec 64) : (s.withVal y).status = some Status.ok.code := rfl
@[simp] theorem State.withVal_valid (s : State) (y : BitVec 64) : (s.withVal y).valid = validVal := rfl
@[simp] theorem State.withVal_config (s : State) (y : BitVec 64) : (s.withVal y).config = s.config := rfl

@[simp] theorem State.withStr_cmd (s : State) (u : Str) : (s.withStr u).cmd = s.cmd := rfl
@[simp] theorem State.withStr_valIn (s : State) (u : Str) : (s.withStr u).valIn = s.valIn := rfl
@[simp] theorem State.withStr_strIn (s : State) (u : Str) : (s.withStr u).strIn = s.strIn := rfl
@[simp] theorem State.withStr_valOut (s : State) (u : Str) : (s.withStr u).valOut = none := rfl
@[simp] theorem State.withStr_strOut (s : State) (u : Str) : (s.withStr u).strOut = some u := rfl
@[simp] theorem State.withStr_signOut (s : State) (u : Str) : (s.withStr u).signOut = none := rfl
@[simp] theorem State.withStr_expOut (s : State) (u : Str) : (s.withStr u).expOut = none := rfl
@[simp] theorem State.withStr_fracOut (s : State) (u : Str) : (s.withStr u).fracOut = none := rfl
@[simp] theorem State.withStr_sigOut (s : State) (u : Str) : (s.withStr u).sigOut = none := rfl
@[simp] theorem State.withStr_status (s : State) (u : Str) : (s.withStr u).status = some Status.ok.code := rfl
@[simp] theorem State.withStr_valid (s : State) (u : Str) : (s.withStr u).valid = validStr := rfl
@[simp] theorem State.withStr_config (s : State) (u : Str) : (s.withStr u).config = s.config := rfl

@[simp] theorem State.withFields_cmd (s : State) (f : FieldTriple) : (s.withFields f).cmd = s.cmd := rfl
@[simp] theorem State.withFields_valIn (s : State) (f : FieldTriple) : (s.withFields f).valIn = s.valIn := rfl
@[simp] theorem State.withFields_strIn (s : State) (f : FieldTriple) : (s.withFields f).strIn = s.strIn := rfl
@[simp] theorem State.withFields_valOut (s : State) (f : FieldTriple) : (s.withFields f).valOut = none := rfl
@[simp] theorem State.withFields_strOut (s : State) (f : FieldTriple) : (s.withFields f).strOut = none := rfl
@[simp] theorem State.withFields_signOut (s : State) (f : FieldTriple) : (s.withFields f).signOut = some (BitVec.ofBool f.sign) := rfl
@[simp] theorem State.withFields_expOut (s : State) (f : FieldTriple) : (s.withFields f).expOut = some (BitVec.ofNat 11 f.exp) := rfl
@[simp] theorem State.withFields_fracOut (s : State) (f : FieldTriple) : (s.withFields f).fracOut = some (BitVec.ofNat 52 f.frac) := rfl
@[simp] theorem State.withFields_sigOut (s : State) (f : FieldTriple) : (s.withFields f).sigOut = none := rfl
@[simp] theorem State.withFields_status (s : State) (f : FieldTriple) : (s.withFields f).status = some Status.ok.code := rfl
@[simp] theorem State.withFields_valid (s : State) (f : FieldTriple) : (s.withFields f).valid = validFields := rfl
@[simp] theorem State.withFields_config (s : State) (f : FieldTriple) : (s.withFields f).config = s.config := rfl

@[simp] theorem State.withSig_cmd (s : State) (n : Nat) : (s.withSig n).cmd = s.cmd := rfl
@[simp] theorem State.withSig_valIn (s : State) (n : Nat) : (s.withSig n).valIn = s.valIn := rfl
@[simp] theorem State.withSig_strIn (s : State) (n : Nat) : (s.withSig n).strIn = s.strIn := rfl
@[simp] theorem State.withSig_valOut (s : State) (n : Nat) : (s.withSig n).valOut = none := rfl
@[simp] theorem State.withSig_strOut (s : State) (n : Nat) : (s.withSig n).strOut = none := rfl
@[simp] theorem State.withSig_signOut (s : State) (n : Nat) : (s.withSig n).signOut = none := rfl
@[simp] theorem State.withSig_expOut (s : State) (n : Nat) : (s.withSig n).expOut = none := rfl
@[simp] theorem State.withSig_fracOut (s : State) (n : Nat) : (s.withSig n).fracOut = none := rfl
@[simp] theorem State.withSig_sigOut (s : State) (n : Nat) : (s.withSig n).sigOut = some (BitVec.ofNat 53 n) := rfl
@[simp] theorem State.withSig_status (s : State) (n : Nat) : (s.withSig n).status = some Status.ok.code := rfl
@[simp] theorem State.withSig_valid (s : State) (n : Nat) : (s.withSig n).valid = validSig := rfl
@[simp] theorem State.withSig_config (s : State) (n : Nat) : (s.withSig n).config = s.config := rfl

@[simp] theorem State.resetOutputs_cmd (s : State) : (s.resetOutputs).cmd = s.cmd := rfl
@[simp] theorem State.resetOutputs_valIn (s : State) : (s.resetOutputs).valIn = s.valIn := rfl
@[simp] theorem State.resetOutputs_strIn (s : State) : (s.resetOutputs).strIn = s.strIn := rfl
@[simp] theorem State.resetOutputs_valOut (s : State) : (s.resetOutputs).valOut = none := rfl
@[simp] theorem State.resetOutputs_strOut (s : State) : (s.resetOutputs).strOut = none := rfl
@[simp] theorem State.resetOutputs_signOut (s : State) : (s.resetOutputs).signOut = none := rfl
@[simp] theorem State.resetOutputs_expOut (s : State) : (s.resetOutputs).expOut = none := rfl
@[simp] theorem State.resetOutputs_fracOut (s : State) : (s.resetOutputs).fracOut = none := rfl
@[simp] theorem State.resetOutputs_sigOut (s : State) : (s.resetOutputs).sigOut = none := rfl
@[simp] theorem State.resetOutputs_status (s : State) : (s.resetOutputs).status = none := rfl
@[simp] theorem State.resetOutputs_valid (s : State) : (s.resetOutputs).valid = validNone := rfl
@[simp] theorem State.resetOutputs_config (s : State) : (s.resetOutputs).config = s.config := rfl

@[simp] theorem State.drive_cmd (s : State) (t : Transaction) : (s.drive t).cmd = t.cmd := rfl
@[simp] theorem State.drive_valIn (s : State) (t : Transaction) : (s.drive t).valIn = t.valIn := rfl
@[simp] theorem State.drive_strIn (s : State) (t : Transaction) : (s.drive t).strIn = t.strIn := rfl
@[simp] theorem State.drive_valOut (s : State) (t : Transaction) : (s.drive t).valOut = s.valOut := rfl
@[simp] theorem State.drive_strOut (s : State) (t : Transaction) : (s.drive t).strOut = s.strOut := rfl
@[simp] theorem State.drive_signOut (s : State) (t : Transaction) : (s.drive t).signOut = s.signOut := rfl
@[simp] theorem State.drive_expOut (s : State) (t : Transaction) : (s.drive t).expOut = s.expOut := rfl
@[simp] theorem State.drive_fracOut (s : State) (t : Transaction) : (s.drive t).fracOut = s.fracOut := rfl
@[simp] theorem State.drive_sigOut (s : State) (t : Transaction) : (s.drive t).sigOut = s.sigOut := rfl
@[simp] theorem State.drive_status (s : State) (t : Transaction) : (s.drive t).status = s.status := rfl
@[simp] theorem State.drive_valid (s : State) (t : Transaction) : (s.drive t).valid = s.valid := rfl
@[simp] theorem State.drive_config (s : State) (t : Transaction) : (s.drive t).config = s.config := rfl

@[simp] theorem State.configure_cmd (s : State) (e : Endianness) : (s.configure e).cmd = s.cmd := rfl
@[simp] theorem State.configure_valIn (s : State) (e : Endianness) : (s.configure e).valIn = s.valIn := rfl
@[simp] theorem State.configure_strIn (s : State) (e : Endianness) : (s.configure e).strIn = s.strIn := rfl
@[simp] theorem State.configure_valOut (s : State) (e : Endianness) : (s.configure e).valOut = s.valOut := rfl
@[simp] theorem State.configure_strOut (s : State) (e : Endianness) : (s.configure e).strOut = s.strOut := rfl
@[simp] theorem State.configure_signOut (s : State) (e : Endianness) : (s.configure e).signOut = s.signOut := rfl
@[simp] theorem State.configure_expOut (s : State) (e : Endianness) : (s.configure e).expOut = s.expOut := rfl
@[simp] theorem State.configure_fracOut (s : State) (e : Endianness) : (s.configure e).fracOut = s.fracOut := rfl
@[simp] theorem State.configure_sigOut (s : State) (e : Endianness) : (s.configure e).sigOut = s.sigOut := rfl
@[simp] theorem State.configure_status (s : State) (e : Endianness) : (s.configure e).status = s.status := rfl
@[simp] theorem State.configure_valid (s : State) (e : Endianness) : (s.configure e).valid = s.valid := rfl
@[simp] theorem State.configure_endianness (s : State) (e : Endianness) :
    (s.configure e).config.endianness = e := rfl
@[simp] theorem State.configure_strInMax (s : State) (e : Endianness) :
    (s.configure e).config.strInMax = s.config.strInMax := rfl
@[simp] theorem State.configure_fracDigits (s : State) (e : Endianness) :
    (s.configure e).config.fracDigits = s.config.fracDigits := rfl

@[simp] theorem State.withFetchWord_cmd (s : State) (nbits w : Nat) :
    (s.withFetchWord nbits w).cmd = BitVec.ofNat 8 (w % 2 ^ nbits) := rfl
@[simp] theorem State.withFetchWord_valIn (s : State) (nbits w : Nat) :
    (s.withFetchWord nbits w).valIn = s.valIn := rfl
@[simp] theorem State.withFetchWord_strIn (s : State) (nbits w : Nat) :
    (s.withFetchWord nbits w).strIn = s.strIn := rfl
@[simp] theorem State.withFetchWord_valOut (s : State) (nbits w : Nat) :
    (s.withFetchWord nbits w).valOut = s.valOut := rfl
@[simp] theorem State.withFetchWord_strOut (s : State) (nbits w : Nat) :
    (s.withFetchWord nbits w).strOut = s.strOut := rfl
@[simp] theorem State.withFetchWord_signOut (s : State) (nbits w : Nat) :
    (s.withFetchWord nbits w).signOut = s.signOut := rfl
@[simp] theorem State.withFetchWord_expOut (s : State) (nbits w : Nat) :
    (s.withFetchWord nbits w).expOut = s.expOut := rfl
@[simp] theorem State.withFetchWord_fracOut (s : State) (nbits w : Nat) :
    (s.withFetchWord nbits w).fracOut = s.fracOut := rfl
@[simp] theorem State.withFetchWord_sigOut (s : State) (nbits w : Nat) :
    (s.withFetchWord nbits w).sigOut = s.sigOut := rfl
@[simp] theorem State.withFetchWord_status (s : State) (nbits w : Nat) :
    (s.withFetchWord nbits w).status = s.status := rfl
@[simp] theorem State.withFetchWord_valid (s : State) (nbits w : Nat) :
    (s.withFetchWord nbits w).valid = s.valid := rfl
@[simp] theorem State.withFetchWord_config (s : State) (nbits w : Nat) :
    (s.withFetchWord nbits w).config = s.config := rfl

@[simp] theorem State.outputs_valOut (s : State) : s.outputs.valOut = s.valOut := rfl
@[simp] theorem State.outputs_strOut (s : State) : s.outputs.strOut = s.strOut := rfl
@[simp] theorem State.outputs_signOut (s : State) : s.outputs.signOut = s.signOut := rfl
@[simp] theorem State.outputs_expOut (s : State) : s.outputs.expOut = s.expOut := rfl
@[simp] theorem State.outputs_fracOut (s : State) : s.outputs.fracOut = s.fracOut := rfl
@[simp] theorem State.outputs_sigOut (s : State) : s.outputs.sigOut = s.sigOut := rfl
@[simp] theorem State.outputs_status (s : State) : s.outputs.status = s.status := rfl
@[simp] theorem State.outputs_valid (s : State) : s.outputs.valid = s.valid := rfl
@[simp] theorem State.inputs_cmd (s : State) : s.inputs.cmd = s.cmd := rfl
@[simp] theorem State.inputs_valIn (s : State) : s.inputs.valIn = s.valIn := rfl
@[simp] theorem State.inputs_strIn (s : State) : s.inputs.strIn = s.strIn := rfl

/-- An update that clears the results forgets every earlier output: only the inputs and the
configuration of the state it starts from are left. -/
theorem State.clearResults_eq (s : State) :
    s.clearResults =
      { cmd := s.cmd, valIn := s.valIn, strIn := s.strIn, valOut := none, strOut := none,
        signOut := none, expOut := none, fracOut := none, sigOut := none, status := s.status,
        valid := validNone, config := s.config } := rfl

end Sys2Proof.Machine
end

