-- ==== Sys2Proof/Laws/Ops.lean ====
section
/-! SUPPORT. What each shared operation and a whole transaction can do, said once: every command answers a
next state that one of five updates makes from the inputs alone. -/

namespace Sys2Proof.Machine

/-- The two outcomes of the alphabet check (R64). -/
theorem withBitString_of_ok {s : State} {k : Str → Host.Outcome State Fault Refusal}
    (h : alphabetOk s.strIn = true) : withBitString s k = k s.strIn := by
  simp [withBitString, h]

theorem withBitString_of_bad {s : State} {k : Str → Host.Outcome State Fault Refusal}
    (h : alphabetOk s.strIn = false) : withBitString s k = .next (s.raised .malformed) := by
  simp [withBitString, h, raise]

/-- The updates a command can end with: a raised status, a pattern on `VAL_OUT`, a string of `W`
characters on `STR_OUT`, the three fields, or a significand whose leading bit is bit `FB`. -/
inductive Ends (s : State) : State → Prop where
  | raised (c : Status) (h : c ≠ .ok) : Ends s (s.raised c)
  | val (y : BitVec 64) : Ends s (s.withVal y)
  | str (p : Precision) (u : Str) (hl : u.length = p.width) (hb : alphabetOk u = true) :
      Ends s (s.withStr u)
  | fields (f : FieldTriple) : Ends s (s.withFields f)
  | sig (p : Precision) (F : Nat) (h : F < 2 ^ p.fracBits) : Ends s (s.withSig (significand p F))

/-- A signed zero has the width of its precision (R80 (c)). -/
theorem zeroString_legal (p : Precision) (b : Bool) :
    (zeroString p b).length = p.width ∧ alphabetOk (zeroString p b) = true := by
  constructor
  · simp [zeroString, p.width_eq, add_assoc]
  · simp [zeroString, alphabetOk_append]

/-- What follows the first `'1'` of a string over the alphabet is over the alphabet (R80). -/
theorem firstOne_alphabet {t rest : Str} {q : Nat} (h : firstOne t = some (q, rest))
    (ht : alphabetOk t = true) : alphabetOk rest = true := by
  induction t generalizing q rest with
  | nil => cases h
  | cons c t ih =>
    simp only [alphabetOk, List.all_cons, Bool.and_eq_true] at ht
    simp only [firstOne] at h
    split at h
    · cases h; exact ht.2
    · split at h
      · cases h
      · cases h; exact ih ‹_› ht.2

theorem integerDigitsLoop_alphabet (fuel n : Nat) {acc : Str} (h : alphabetOk acc = true) :
    alphabetOk (integerDigitsLoop fuel n acc) = true := by
  induction fuel generalizing n acc with
  | zero => exact h
  | succ fuel ih =>
    rw [integerDigitsLoop]
    split
    · exact h
    · exact ih _ (by rw [alphabetOk_append, alphabetOk_bin, h, Bool.and_self])

theorem fractionDigits_alphabet (den n r : Nat) : alphabetOk (fractionDigits den n r) = true := by
  induction n generalizing r with
  | zero => rfl
  | succ n ih =>
    rw [fractionDigits]
    split
    · simpa [alphabetOk, Ch.isBit] using ih _
    · simpa [alphabetOk, Ch.isBit] using ih _

theorem normalizeDigits_alphabet {ID FD M : Str} {E : Int} (h : normalizeDigits ID FD = some (E, M))
    (hI : alphabetOk ID = true) (hF : alphabetOk FD = true) : alphabetOk M = true := by
  unfold normalizeDigits at h
  split at h
  · cases h; rw [alphabetOk_append, firstOne_alphabet ‹_› hI, hF, Bool.and_self]
  · split at h
    · cases h; exact firstOne_alphabet ‹_› hF
    · cases h

/-- Steps 5 to 7 give a string of `W` characters or raise `RANGE` (R81, R83). -/
theorem assembleString_legal (p : Precision) (b : Bool) (E : Int) {M : Str}
    (hM : alphabetOk M = true) :
    assembleString p b E M = .error .range ∨
      ∃ u, assembleString p b E M = .ok u ∧ u.length = p.width ∧ alphabetOk u = true := by
  unfold assembleString
  simp only
  split
  · exact .inl rfl
  · refine .inr ⟨_, rfl, ?_, ?_⟩
    · simp [p.width_eq, add_assoc]
    · simp [alphabetOk_append, alphabetOk_fit hM]

/-- `ENCA` on any FieldTriple gives a string of `W` characters, or raises `UNSUPPORTED` or `RANGE`
(R84). -/
theorem encodeFields_legal (p : Precision) (n : Nat) (f : FieldTriple) :
    (∃ c, encodeFields p n f = .error c ∧ c ≠ .ok) ∨
      ∃ u, encodeFields p n f = .ok u ∧ u.length = p.width ∧ alphabetOk u = true := by
  unfold encodeFields
  split
  · exact .inl ⟨_, rfl, by decide⟩
  · exact .inl ⟨_, rfl, by decide⟩
  · exact .inr ⟨_, rfl, zeroString_legal p f.sign⟩
  · unfold encodeValue
    simp only
    split
    · exact .inr ⟨_, rfl, zeroString_legal p _⟩
    · have hM := normalizeDigits_alphabet ‹_› (integerDigitsLoop_alphabet _ _ rfl)
        (fractionDigits_alphabet _ _ _)
      rcases assembleString_legal p (normalValue p f).negative _ hM with h | h
      · exact .inl ⟨_, h, by decide⟩
      · exact .inr h

theorem stringFields_frac_lt (p : Precision) (t : Str) :
    (stringFields p (fit p.width t)).frac < 2 ^ p.fracBits := by
  have h := uval_lt (slice (fit p.width t) (1 + p.expBits) p.width)
  have hw := p.width_eq
  simpa [stringFields, slice, show p.width - (1 + p.expBits) = p.fracBits by omega] using h

/-- Every command answers a next state that one of the five updates makes (R18, R98). -/
theorem exec_ends (i : Instr) (s : State) : ∃ t, exec i s = .next t ∧ Ends s t := by
  have hbit : ∀ k : Str → Host.Outcome State Fault Refusal,
      (∀ u, ∃ t, k u = .next t ∧ Ends s t) → ∃ t, withBitString s k = .next t ∧ Ends s t := by
    intro k hk
    cases h : alphabetOk s.strIn
    · exact ⟨_, withBitString_of_bad h, .raised _ (by decide)⟩
    · rw [withBitString_of_ok h]; exact hk _
  have hencd : ∀ p, ∃ t, encodeDirect p s = .next t ∧ Ends s t := fun p =>
    ⟨_, rfl, .str p _ (by rw [fieldString_patternFields, bin_length])
      (by rw [fieldString_patternFields, alphabetOk_bin])⟩
  have hdecd : ∀ p, ∃ t, decodeDirect p s = .next t ∧ Ends s t := fun p =>
    hbit _ fun _ => ⟨_, rfl, .val _⟩
  have henca : ∀ p, ∃ t, encodeArithmetic p s = .next t ∧ Ends s t := by
    intro p
    unfold encodeArithmetic
    rcases encodeFields_legal p (s.config.fracDigits.count p)
      (patternFields p (patternOperand p s.valIn)) with ⟨c, h, hc⟩ | ⟨u, h, hl, hb⟩
    · rw [h]; exact ⟨_, rfl, .raised _ hc⟩
    · rw [h]; exact ⟨_, rfl, .str p _ hl hb⟩
  have hdeca : ∀ p, ∃ t, decodeArithmetic p s = .next t ∧ Ends s t := by
    intro p
    refine hbit _ fun u => ?_
    unfold decodeFields
    split
    · exact ⟨_, rfl, .val _⟩
    · rename_i c h
      refine ⟨_, rfl, .raised _ ?_⟩
      split at h <;> cases h; decide
  have hxtrt : ∀ p, ∃ t, extractFields p s = .next t ∧ Ends s t := fun p =>
    hbit _ fun _ => ⟨_, rfl, .fields _⟩
  have hrcon : ∀ p, ∃ t, reconstruct p s = .next t ∧ Ends s t := fun p =>
    hbit _ fun _ => ⟨_, rfl, .sig p _ (stringFields_frac_lt p _)⟩
  cases i with
  | encdS => exact hencd .s
  | decdS => exact hdecd .s
  | encaS => exact henca .s
  | decaS => exact hdeca .s
  | xtrtS => exact hxtrt .s
  | rconS => exact hrcon .s
  | encdD => exact hencd .d
  | decdD => exact hdecd .d
  | encaD => exact henca .d
  | decaD => exact hdeca .d
  | xtrtD => exact hxtrt .d
  | rconD => exact hrcon .d

/-- What a step can do: refuse a string the port cannot hold, or answer a next state that one of the
five updates makes (R12, R18, R98). -/
theorem step_cases (s : State) :
    (presentable s = false ∧ step s = .refused .stringTooLong) ∨
      (presentable s = true ∧ ∃ t, step s = .next t ∧ Ends s t) := by
  unfold step
  cases hp : presentable s
  · exact .inl ⟨rfl, rfl⟩
  · refine .inr ⟨rfl, ?_⟩
    simp only [if_true]
    cases hd : decodeCmd s.cmd with
    | ok i => exact exec_ends i s
    | error c =>
      refine ⟨_, rfl, .raised _ ?_⟩
      rintro rfl
      revert hd
      unfold decodeCmd
      simp only
      split
      · simp
      · split
        · simp
        · split <;> simp

/-- A command reads no output port: it does from any state what it does from the state whose output
ports hold no value (R18, R35). -/
theorem exec_resetOutputs (i : Instr) (s : State) : exec i s.resetOutputs = exec i s := by
  cases i <;>
    simp only [exec, execEncdS, execEncdD, execDecdS, execDecdD, execEncaS, execEncaD, execDecaS,
      execDecaD, execXtrtS, execXtrtD, execRconS, execRconD, encodeDirect, decodeDirect,
      encodeArithmetic, decodeArithmetic, extractFields, reconstruct, withBitString, raise,
      State.resetOutputs_valIn, State.resetOutputs_strIn, State.resetOutputs_config] <;> rfl

/-- A transaction reads no output port (R18, R35). -/
theorem step_resetOutputs (s : State) : step s.resetOutputs = step s := by
  unfold step
  simp only [exec_resetOutputs, State.resetOutputs_cmd]
  rfl

end Sys2Proof.Machine
end

