-- ==== Sys2Proof/Laws/Arithmetic.lean ====
section
/-! SUPPORT. One lemma per step of spec/42_arithmetic.md: what the digit loops of R78 and R79 produce, where
`firstOne` and `normalizeDigits` find the leading `'1'` (R80), and what steps 5 to 7 assemble (R81 to R83). -/

namespace Sys2Proof.Machine

/-- The loop of R78 writes `n` in binary in front of what it has, without leading zeros, when it has a
turn for each digit. -/
theorem integerDigitsLoop_eq (fuel n : Nat) (acc : Str) (h : n < 2 ^ fuel) :
    integerDigitsLoop fuel n acc = bin n.size n ++ acc := by
  induction fuel generalizing n acc with
  | zero =>
    have h0 : n = 0 := by simpa using h
    subst h0; rfl
  | succ fuel ih =>
    rw [integerDigitsLoop]
    split
    · subst_vars; rfl
    · rename_i hn
      have hlt : n / 2 < 2 ^ fuel := by rw [pow_succ] at h; omega
      have hs : n.size = (n / 2).size + 1 := by
        conv_lhs => rw [← Nat.bit_testBit_zero_shiftRight_one n]
        rw [Nat.size_bit, Nat.shiftRight_one]
        rw [Nat.bit_testBit_zero_shiftRight_one]; exact hn
      have hm : bin 1 (n % 2) = bin 1 n := by simpa using bin_mod 1 n
      rw [ih _ _ hlt, ← List.append_assoc, hm, hs]
      congr 1
      simpa using bin_append (n / 2).size 1 n

/-- Step 2: `ID` is `I` in binary with no leading zeros (R78). -/
theorem integerDigits_eq (p : Precision) {I : Nat} (h : I < 2 ^ (p.bias + 1)) :
    integerDigits p I = bin I.size I := by
  rw [integerDigits, integerDigitsLoop_eq _ _ _ h, List.append_nil]

/-- Step 3: `FD` is the first `n` digits of `r / den`, that is `floor(r × 2^n / den)` on `n` digits
(R79). -/
theorem fractionDigits_eq {den : Nat} (n : Nat) {r : Nat} (h : r < den) :
    fractionDigits den n r = bin n (r * 2 ^ n / den) := by
  induction n generalizing r with
  | zero => rfl
  | succ n ih =>
    have hd : 0 < den := by omega
    have key : r * 2 ^ (n + 1) = 2 * r * 2 ^ n := by rw [pow_succ]; ring
    rw [fractionDigits, bin, key]
    have hq : 2 * r * 2 ^ n / den / 2 ^ n = 2 * r / den := by
      rw [Nat.div_div_eq_div_mul, mul_comm den, ← Nat.div_div_eq_div_mul,
        Nat.mul_div_cancel _ (by positivity)]
    rw [Nat.testBit_eq_decide_div_mod_eq, hq]
    split
    · rename_i hge
      have h1 : 2 * r / den = 1 := Nat.div_eq_of_lt_le (by omega) (by omega)
      have hsub : 2 * r * 2 ^ n = (2 * r - den) * 2 ^ n + den * 2 ^ n := by
        rw [← add_mul]; congr 1; omega
      rw [ih (by omega), h1, hsub, Nat.add_mul_div_left _ _ hd]
      congr 1
      rw [← bin_mod n (_ + 2 ^ n), Nat.add_mod_right, bin_mod]
    · rename_i hlt
      have h1 : 2 * r / den = 0 := Nat.div_eq_of_lt (by omega)
      rw [ih (by omega), h1]; rfl

/-- The integer and fractional digits joined are one binary expansion, `floor(a × 2^n)` (R78, R79). -/
theorem digits_eq (p : Precision) (n : Nat) {num den : Nat} (hd : 0 < den)
    (h : num / den < 2 ^ (p.bias + 1)) :
    integerDigits p (num / den) ++ fractionDigits den n (num % den) =
      bin ((num / den).size + n) (num * 2 ^ n / den) := by
  have h1 : num * 2 ^ n = num % den * 2 ^ n + den * (num / den * 2 ^ n) := by
    conv_lhs => rw [← Nat.mod_add_div num den]
    ring
  have h2 : num % den * 2 ^ n / den < 2 ^ n := by
    rw [Nat.div_lt_iff_lt_mul hd, mul_comm]
    exact Nat.mul_lt_mul_of_pos_left (Nat.mod_lt _ hd) (by positivity)
  rw [integerDigits_eq p h, fractionDigits_eq n (Nat.mod_lt _ hd), ← bin_append, h1,
    Nat.add_mul_div_left _ _ hd, ← bin_mod n (_ + _), Nat.add_mul_mod_self_right,
    Nat.add_mul_div_right _ _ (by positivity), Nat.div_eq_of_lt h2, Nat.mod_eq_of_lt h2, zero_add]

/-- A positive number in binary is leading zeros, a `'1'`, and the bits below its leading one. -/
theorem bin_leading_one {K n : Nat} (hn : 0 < n) (hK : n.size ≤ K) :
    bin K n = zeros (K - n.size) ++ Ch.one :: bin (n.size - 1) n := by
  have hs : 0 < n.size := Nat.size_pos.mpr hn
  have h0 : n / 2 ^ n.size = 0 := Nat.div_eq_of_lt (Nat.lt_size_self n)
  have h1 : n / 2 ^ (n.size - 1) = 1 := by
    apply Nat.div_eq_of_lt_le
    · rw [one_mul]; exact Nat.lt_size.mp (by omega)
    · have := Nat.lt_size_self n
      rw [show n.size = (n.size - 1) + 1 by omega, pow_succ] at this; omega
  have e1 : bin K n = bin (K - n.size) (n / 2 ^ n.size) ++ bin n.size n := by
    rw [bin_append]; congr 1; omega
  have e2 : bin n.size n = bin 1 (n / 2 ^ (n.size - 1)) ++ bin (n.size - 1) n := by
    rw [bin_append]; congr 1; omega
  rw [e1, e2, h0, h1, bin_zero]; rfl

/-- A string without `'1'` has no first one (R80). -/
theorem firstOne_none_iff (t : Str) : firstOne t = none ↔ Ch.one ∉ t := by
  induction t with
  | nil => simp [firstOne]
  | cons c t ih =>
    rw [firstOne]
    split
    · subst_vars; simp
    · rename_i h
      split
      · rename_i h2; simp [ih.mp h2, Ne.symm h]
      · rename_i h2
        have : ¬ firstOne t = none := by rw [h2]; simp
        rw [ih, not_not] at this
        simp [this]

/-- `firstOne` finds the first `'1'` and what follows it (R80). -/
theorem firstOne_append_cons {z : Str} (rest : Str) (h : Ch.one ∉ z) :
    firstOne (z ++ Ch.one :: rest) = some (z.length, rest) := by
  induction z with
  | nil => rfl
  | cons c z ih =>
    simp only [List.mem_cons, not_or] at h
    rw [List.cons_append, firstOne, if_neg (Ne.symm h.1), ih h.2]; rfl

theorem firstOne_some {t rest : Str} {q : Nat} (h : firstOne t = some (q, rest)) :
    ∃ z, t = z ++ Ch.one :: rest ∧ z.length = q ∧ Ch.one ∉ z := by
  induction t generalizing q rest with
  | nil => cases h
  | cons c t ih =>
    rw [firstOne] at h
    split at h
    · cases h; subst_vars; exact ⟨[], rfl, rfl, by simp⟩
    · rename_i hc
      split at h
      · cases h
      · rename_i h2
        cases h
        obtain ⟨z, rfl, rfl, hz⟩ := ih h2
        exact ⟨c :: z, rfl, rfl, by simp [hz, Ne.symm hc]⟩

/-- Steps 5 to 7 inside the exponent range (R81, R82, R83). -/
theorem assembleString_in_range (p : Precision) (b : Bool) {E : Int} {M : Str}
    (h1 : 1 ≤ E + p.bias) (h2 : E + p.bias ≤ 2 ^ p.expBits - 2) :
    assembleString p b E M =
      .ok (bin 1 b.toNat ++ bin p.expBits (E + p.bias).toNat ++ fit p.fracBits M) := by
  unfold assembleString
  simp only
  rw [if_neg (by omega)]

/-- A class is normal exactly when its exponent field is neither all zero nor all one (R67). -/
theorem classify_normal_iff (p : Precision) (f : FieldTriple) :
    classify p f = .normal ↔ f.exp ≠ 0 ∧ f.exp ≠ p.expMax := by
  unfold classify
  split
  · split <;> simp_all
  · split <;> simp_all

end Sys2Proof.Machine
end

