-- ==== Sys2Proof/Laws/PerInstr.lean ====
section
/-! SUPPORT. One lemma per command about its word as syntax: the three fields of its encoding (spec/30_encoding.md
R50 to R53). -/

namespace Sys2Proof.Laws.WordFields

/-- The word of a command holds its operation's `OP`, its precision's `PREC` and `RSV = 000`, and is
therefore legal. -/
def Statement (i : Instr) : Prop :=
  commandFields (encode i) = { rsv := 0b000#3, prec := precField i.prec, op := opField i.op } ∧
    (commandFields (encode i)).wf = true ∧ Instr.ofOp i.op i.prec = i

theorem encdS : Statement .encdS := by unfold Statement; decide
theorem decdS : Statement .decdS := by unfold Statement; decide
theorem encaS : Statement .encaS := by unfold Statement; decide
theorem decaS : Statement .decaS := by unfold Statement; decide
theorem xtrtS : Statement .xtrtS := by unfold Statement; decide
theorem rconS : Statement .rconS := by unfold Statement; decide
theorem encdD : Statement .encdD := by unfold Statement; decide
theorem decdD : Statement .decdD := by unfold Statement; decide
theorem encaD : Statement .encaD := by unfold Statement; decide
theorem decaD : Statement .decaD := by unfold Statement; decide
theorem xtrtD : Statement .xtrtD := by unfold Statement; decide
theorem rconD : Statement .rconD := by unfold Statement; decide

end Sys2Proof.Laws.WordFields
end

