-- ==== Sys2Proof/Tests/Slice0.lean ====
section
/-! SUPPORT. The model's own tests. Expected results are the vectors of spec/95_test_vectors.md, named at each
test; words are written out from spec/30_encoding.md R50 to R52. The last part shows, for every statement with
hypotheses, a state and operands that meet them all. -/

namespace Sys2Proof.Tests

open Sys2Proof Sys2Proof.Machine Sys2Proof.Stated

/-- A string literal as characters of the block. -/
def str (t : String) : Str :=
  t.toList.map fun c => if c = '0' then .zero else if c = '1' then .one else .other c.toNat

/-- A state with its operands driven and with a stale `SIG_OUT` from an earlier transaction. -/
def st (val : BitVec 64) (t : String) : State :=
  { State.reset with valIn := val, strIn := str t, sigOut := some 5#53, valid := 0b100000#6,
                     status := some 0#3 }

/-- The same with the alternative `FRAC_DIGITS = W`. -/
def stW (val : BitVec 64) (t : String) : State :=
  { st val t with config := { Config.atReset with fracDigits := .width } }

/-- What a command did: its status, its `VALID` vector and its value and string results. -/
def seen (o : Host.Outcome State Fault Refusal) :
    Option (Option (BitVec 3) × BitVec 6 × Option (BitVec 64) × Option Str) :=
  match o with
  | .next s => some (s.status, s.valid, s.valOut, s.strOut)
  | _ => none

/-- What a sub-unit command did. -/
def seenFields (o : Host.Outcome State Fault Refusal) :
    Option (Option (BitVec 3) × BitVec 6 × Option (BitVec 1) × Option (BitVec 11) ×
      Option (BitVec 52) × Option (BitVec 53)) :=
  match o with
  | .next s => some (s.status, s.valid, s.signOut, s.expOut, s.fracOut, s.sigOut)
  | _ => none

/-! ## Well-formedness: each check refuses an ill-formed term -/

theorem test_wf_refuses_rsv : CommandFields.wf ⟨0b001#3, 0b00#2, 0b000#3⟩ = false := by decide
theorem test_wf_refuses_op6 : CommandFields.wf ⟨0b000#3, 0b00#2, 0b110#3⟩ = false := by decide
theorem test_wf_refuses_op7 : CommandFields.wf ⟨0b000#3, 0b01#2, 0b111#3⟩ = false := by decide
theorem test_wf_refuses_prec2 : CommandFields.wf ⟨0b000#3, 0b10#2, 0b000#3⟩ = false := by decide
theorem test_wf_refuses_prec3 : CommandFields.wf ⟨0b000#3, 0b11#2, 0b101#3⟩ = false := by decide
theorem test_wf_accepts_rconD : CommandFields.wf ⟨0b000#3, 0b01#2, 0b101#3⟩ = true := by decide
theorem test_wf_refuses_short_port :
    Config.wf { Config.atReset with strInMax := 63 } = false := by decide
theorem test_wf_refuses_long_string :
    Transaction.wf { Config.atReset with strInMax := 64 }
      { cmd := 1#8, valIn := 0#64, strIn := zeros 65 } = false := by decide

/-! ## Decoding: words written out from `RSV`, `PREC` and `OP` (R50, R51, R52) -/

theorem test_decode_encd :
    decodeCmd 0b000_00_000#8 = .ok .encdS ∧ decodeCmd 0b000_01_000#8 = .ok .encdD := by decide
theorem test_decode_decd :
    decodeCmd 0b000_00_001#8 = .ok .decdS ∧ decodeCmd 0b000_01_001#8 = .ok .decdD := by decide
theorem test_decode_enca :
    decodeCmd 0b000_00_010#8 = .ok .encaS ∧ decodeCmd 0b000_01_010#8 = .ok .encaD := by decide
theorem test_decode_deca :
    decodeCmd 0b000_00_011#8 = .ok .decaS ∧ decodeCmd 0b000_01_011#8 = .ok .decaD := by decide
theorem test_decode_xtrt :
    decodeCmd 0b000_00_100#8 = .ok .xtrtS ∧ decodeCmd 0b000_01_100#8 = .ok .xtrtD := by decide
theorem test_decode_rcon :
    decodeCmd 0b000_00_101#8 = .ok .rconS ∧ decodeCmd 0b000_01_101#8 = .ok .rconD := by decide

/-- 95 §2.1: `OP = 110` is tested before `PREC = 10`, `RSV` before both. -/
theorem test_decode_priority :
    decodeCmd 0x16#8 = .error .illegal ∧ decodeCmd 0x33#8 = .error .illegal ∧
      decodeCmd 0x13#8 = .error .type := by decide

theorem test_table_word : decodeTableWord 8 0x0D = some .rconD ∧ decodeTableWord 8 0x10 = none := by
  decide

theorem test_fetch_word_runs_first :
    seen (step (State.reset.withFetchWord 8 0x0B)) = some (some 4#3, 0#6, none, none) := by decide

/-! ## Commands (95 §2.2 to §2.7) -/

theorem test_encdS_signalling_nan :
    seen (execEncdS (st 0xFFFFFFFF7F800001#64 "")) =
      some (some 0#3, 0b000010#6, none, some (str "01111111100000000000000000000001")) := by decide

theorem test_encdD_largest_subnormal :
    seen (execEncdD (st 0x000FFFFFFFFFFFFF#64 "")) =
      some (some 0#3, 0b000010#6, none, some (str
        "0000000000001111111111111111111111111111111111111111111111111111")) := by decide

theorem test_decdS_short :
    seen (execDecdS (st 0#64 "0100000001")) =
      some (some 0#3, 0b000001#6, some 0x40400000#64, none) := by decide

theorem test_decdS_bad_past_width :
    seen (execDecdS (st 0#64 "01000001001111111010111000010100x")) =
      some (some 3#3, 0#6, none, none) := by decide

theorem test_decdD_short :
    seen (execDecdD (st 0#64 "01111111111")) =
      some (some 0#3, 0b000001#6, some 0x7FE0000000000000#64, none) := by decide

theorem test_encaS_11_98 :
    seen (execEncaS (st 0x413FAE14#64 "")) =
      some (some 0#3, 0b000010#6, none, some (str "01000001001111111010111000010100")) := by
  decide +kernel

/-- 95 §2.3 with `FRAC_DIGITS = W`: the low bit is cleared. -/
theorem test_encaS_alternative :
    seen (execEncaS (stW 0x3A800001#64 "")) =
      some (some 0#3, 0b000010#6, none, some (str "00111010100000000000000000000000")) := by
  decide +kernel

theorem test_encaD_smallest_normal :
    seen (execEncaD (st 0x0010000000000000#64 "")) =
      some (some 0#3, 0b000010#6, none, some (str
        "0000000000010000000000000000000000000000000000000000000000000000")) := by
  decide +kernel

theorem test_encaD_infinity :
    seen (execEncaD (st 0x7FF0000000000000#64 "")) = some (some 4#3, 0#6, none, none) := by decide

theorem test_decaS_long :
    seen (execDecaS (st 0#64 "0100000001111111111111111111111111111111")) =
      some (some 0#3, 0b000001#6, some 0x407FFFFF#64, none) := by decide +kernel

/-- 95 §2.1: `MALFORMED` is tested before `UNSUPPORTED`. -/
theorem test_decaS_priority :
    seen (execDecaS (st 0#64 "00x")) = some (some 3#3, 0#6, none, none) := by decide

theorem test_decaD_three_halves :
    seen (execDecaD (st 0#64 "0011111111111")) =
      some (some 0#3, 0b000001#6, some 0x3FF8000000000000#64, none) := by decide +kernel

theorem test_decaD_infinity :
    seen (execDecaD (st 0#64 "011111111111")) = some (some 4#3, 0#6, none, none) := by decide

theorem test_xtrtS_nan :
    seenFields (execXtrtS (st 0#64 "01111111110000000000000000000001")) =
      some (some 0#3, 0b011100#6, some 0#1, some 0x0FF#11, some 0x400001#52, none) := by decide

theorem test_xtrtD_three_halves :
    seenFields (execXtrtD (st 0#64 "0011111111111")) =
      some (some 0#3, 0b011100#6, some 0#1, some 0x3FF#11, some 0x8000000000000#52, none) := by decide

theorem test_rconS_short :
    seenFields (execRconS (st 0#64 "0100000001")) =
      some (some 0#3, 0b100000#6, none, none, none, some 0xC00000#53) := by decide

theorem test_rconD_empty :
    seenFields (execRconD (st 0#64 "")) =
      some (some 0#3, 0b100000#6, none, none, none, some 0x10000000000000#53) := by decide

/-! ## The host at the ports -/

theorem test_read_unwritten_port_faults :
    (readValOut (st 0#64 "")).toOption = none ∧ (readSigOut (st 0#64 "")).toOption = some 5#53 := by
  decide

/-- 40_fields.md R44: `big` keeps the sign's byte at the lowest address. -/
theorem test_scatter_big :
    scatterBytes .big .s 16 0x413FAE14#64 =
      [(16, 0x41#8), (17, 0x3F#8), (18, 0xAE#8), (19, 0x14#8)] := by decide

theorem test_assemble_little :
    assembleBytes .little .s [(16, 0x14#8), (17, 0xAE#8), (18, 0x3F#8), (19, 0x41#8)] 16 =
      some 0x413FAE14#64 := by decide

/-! ## Witnesses: the hypotheses of each statement are met together, at the boundaries of each clause -/

/-- The string and pattern of 11.98f (95 W6). -/
def s1198 : State := st 0x413FAE14#64 "01000001001111111010111000010100"

/-- A state with a command and a string on a port of 64 characters. -/
def port64 (cmd : BitVec 8) (t : Str) : State :=
  { State.reset with cmd := cmd, strIn := t, config := { Config.atReset with strInMax := 64 } }

/-- The state a step answers, where it answers one. -/
def after (s : State) : State :=
  match step s with
  | .next t => t
  | _ => s

theorem bitString_of {t : Str} (h : alphabetOk t = true) : bitString t :=
  fun c hc => (Ch.isBit_iff c).mp (List.all_eq_true.mp h c hc)

theorem reset_inv : State.reset.Inv := by
  refine ⟨by unfold State.validMatchesPorts; decide, ?_, by unfold State.okMatchesValid; decide,
    ?_, ?_, by decide, by decide⟩ <;> intro u hu <;> simp [State.reset] at hu

theorem witness_DecodeEncodeAgree :
    Instr.rconD.wf = true ∧ decodeCmd 0x0D#8 = .ok .rconD := by decide

/-- Exponent fields 0, 1, `2^EB − 2` and `2^EB − 1`, one for each class. -/
theorem witness_ClassesOfPatterns :
    classify .s ⟨false, 1, 0⟩ = .normal ∧ classify .d ⟨true, 2046, 2 ^ 52 - 1⟩ = .normal ∧
      classify .s ⟨true, 0, 0⟩ = .zero ∧ classify .s ⟨false, 0, 1⟩ = .subnormalPattern ∧
      classify .s ⟨false, 255, 2 ^ 23 - 1⟩ = .specialPattern := by decide

theorem witness_StepRunsTheDecodedCommand :
    (port64 0x0D#8 (zeros 64)).strIn.length ≤ (port64 0x0D#8 (zeros 64)).config.strInMax ∧
      decodeCmd (port64 0x0D#8 (zeros 64)).cmd = .ok .rconD := by decide

theorem witness_StepRaisesOnReservedWord :
    (port64 0x10#8 (zeros 64)).strIn.length ≤ (port64 0x10#8 (zeros 64)).config.strInMax ∧
      (port64 0x10#8 []).cmd ∈ typeWords ∧ (port64 0x1D#8 []).cmd ∈ typeWords ∧
      illegalWord (port64 0x06#8 []).cmd ∧ illegalWord (port64 0x1F#8 []).cmd ∧
      illegalWord (port64 0x20#8 []).cmd ∧ illegalWord (port64 0xFF#8 []).cmd := by unfold illegalWord; decide

theorem witness_StepRefusesStringLongerThanThePort :
    (port64 0x00#8 (zeros 65)).config.strInMax < (port64 0x00#8 (zeros 65)).strIn.length := by
  decide

theorem witness_StatusOfEveryTransaction :
    (port64 0x03#8 (zeros 64)).strIn.length ≤ (port64 0x03#8 (zeros 64)).config.strInMax := by decide

/-- Also for `TransactionIsIdempotent`. -/
theorem witness_TransactionWritesOnlyOutputPorts :
    step (port64 0x05#8 []) = .next (after (port64 0x05#8 [])) := by rfl

theorem witness_OutputsDependOnInputsOnly :
    ∃ s s' t : State, s ≠ s' ∧ s.cmd = s'.cmd ∧ s.valIn = s'.valIn ∧ s.strIn = s'.strIn ∧
      s.config.strInMax = s'.config.strInMax ∧ s.config.fracDigits = s'.config.fracDigits ∧
      step s = .next t :=
  ⟨s1198, s1198.resetOutputs.configure .big, after s1198, by decide, rfl, rfl, rfl, rfl, rfl, rfl⟩

theorem witness_EndiannessChangesNoResult : step s1198 = .next (after s1198) := by rfl

theorem witness_EveryStepKeepsTheInvariant :
    State.reset.Inv ∧ step State.reset = .next (after State.reset) := ⟨reset_inv, rfl⟩

/-- After `ENCD.S` the string port alone holds a value; at reset no port does. -/
theorem witness_HostReadsOnlyValidPorts :
    State.reset.Inv ∧ (after State.reset).Inv ∧ (after State.reset).valid.getLsbD 1 = true ∧
      State.reset.valid = 0#6 ∧ State.reset.status = none ∧
      (after State.reset).status = some 0#3 := by
  refine ⟨reset_inv, ?_, by decide, rfl, rfl, by decide⟩
  refine ⟨by unfold State.validMatchesPorts; decide, ?_, by unfold State.okMatchesValid; decide,
    ?_, ?_, by decide, by decide⟩
  · intro c hc; cases hc; decide
  · intro u hu; cases hu; exact ⟨.inl rfl, bitString_of (by decide)⟩
  · intro n hn; cases hn

/-- The other ports' bits are 1 after `DECD.S`, `XTRT.S` and `RCON.S`. -/
theorem witness_HostReadsOnlyValidPorts_other_bits :
    (after { s1198 with cmd := 0x01#8 }).valid = 0b000001#6 ∧
      (after { s1198 with cmd := 0x04#8 }).valid = 0b011100#6 ∧
      (after { s1198 with cmd := 0x05#8 }).valid = 0b100000#6 := by decide

/-- A bad character in the middle, and one past position `W`. Also for the `MALFORMED` clauses of
`DecdWritesTheStringPattern`, `XtrtWritesTheFields`, `RconWritesTheSignificand` and
`DecaEvaluatesTheFormula`. -/
theorem witness_StringOperationsRaiseMalformed :
    ¬ bitString (st 0#64 "0 1").strIn ∧
      ¬ bitString (st 0#64 "01000001001111111010111000010100x").strIn :=
  ⟨fun h => absurd (h (.other 32) (by decide)) (by decide),
    fun h => absurd (h (.other 120) (by decide)) (by decide)⟩

/-- The empty, an exact and a long string. Also for `XtrtWritesTheFields`, `RconWritesTheSignificand`
and the second clause of `StringOperationsRaiseMalformed`. -/
theorem witness_DecdWritesTheStringPattern :
    bitString (st 0#64 "").strIn ∧ bitString s1198.strIn ∧
      bitString (st 0#64 "0100000001111111111111111111111111111111").strIn :=
  ⟨bitString_of (by decide), bitString_of (by decide), bitString_of (by decide)⟩

theorem witness_DirectStrategyLaws :
    s1198.strIn.length = Precision.s.width ∧ bitString s1198.strIn :=
  ⟨by decide, bitString_of (by decide)⟩

theorem witness_EncodedStringsHaveFixedWidth :
    exec (Instr.ofOp .encd .s) s1198 = .next (after s1198) ∧
      (after s1198).strOut = some s1198.strIn := ⟨rfl, by decide⟩

theorem witness_EncodedStringsCanBeFedBack :
    s1198.config.wf = true ∧ step s1198 = .next (after s1198) ∧
      (after s1198).strOut = some s1198.strIn := ⟨by decide, rfl, by decide⟩

theorem witness_UpperHalfOfValInIsIgnoredAtS :
    (0xFFFFFFFF413FAE14#64).extractLsb' 0 32 = s1198.valIn.extractLsb' 0 32 ∧
      exec (Instr.ofOp .encd .s) s1198 = .next (after s1198) := ⟨by decide, rfl⟩

/-- The smallest subnormal-pattern, `+∞` and a NaN. The strings of `DECA`'s clause are those of
`witness_DecaEvaluatesTheFormula`. -/
theorem witness_UnsupportedOperands :
    (expField .s (operand .s (st 1#64 "")) = 0 ∧ fracField .s (operand .s (st 1#64 "")) ≠ 0) ∧
      expField .s (operand .s (st 0x7F800000#64 "")) = 2 ^ Precision.s.expBits - 1 ∧
      expField .d (operand .d (st 0xFFF8000000000000#64 "")) = 2 ^ Precision.d.expBits - 1 := by
  decide

/-- Both zeros. -/
theorem witness_EncodersGiveSignedZero :
    expField .s (operand .s (st 0#64 "")) = 0 ∧ fracField .s (operand .s (st 0#64 "")) = 0 ∧
      expField .d (operand .d (st 0x8000000000000000#64 "")) = 0 ∧
      fracField .d (operand .d (st 0x8000000000000000#64 "")) = 0 ∧
      signBit .d (operand .d (st 0x8000000000000000#64 "")) = true := by decide

theorem witness_EncaAgreesWithEncd :
    s1198.config.fracDigits = .exact ∧ encaSupports .s (operand .s s1198) ∧
      encaSupports .s (operand .s (st 0x80000000#64 "")) := by
  unfold encaSupports; decide

/-- The smallest and largest normal patterns. Also for `EncaCompletesWithClosedForm`. -/
theorem witness_EncaClosedFormForAnyDigits :
    Precision.s.width ≤ 32 ∧ normalPattern .s 0x00800000#32 ∧ normalPattern .s 0x7F7FFFFF#32 ∧
      normalPattern .d 0x0010000000000000#64 ∧ normalPattern .d 0x7FEFFFFFFFFFFFFF#64 := by
  unfold normalPattern; decide

theorem witness_EncaCompletesWithClosedForm :
    normalPattern .s (operand .s s1198) ∧ normalPattern .s (operand .s (st 0x00800000#64 "")) := by
  unfold normalPattern; decide

/-- The cases `E0 = −32`, the last digit generated, and `E0 = −33`, the first that is none (95 §2.3). -/
theorem witness_EncaAlternativeAgreesExactlyWhen :
    (stW 0x2F800001#64 "").config.fracDigits = .width ∧
      normalPattern .s (operand .s (stW 0x2F800001#64 "")) ∧
      normalPattern .s (operand .s (stW 0x2F000000#64 "")) ∧
      trueExp .s (operand .s (stW 0x2F800001#64 "")) = -32 ∧
      trueExp .s (operand .s (stW 0x2F000000#64 "")) = -33 := by
  unfold normalPattern; decide

theorem witness_AssembleRaisesRangeOutsideTheField :
    ((-127 : Int) + Precision.s.bias < 1) ∧
      ((2 : Int) ^ Precision.s.expBits - 2 < 128 + Precision.s.bias) ∧
      (1 ≤ (-126 : Int) + Precision.s.bias) ∧
      ((127 : Int) + Precision.s.bias ≤ 2 ^ Precision.s.expBits - 2) := by decide

theorem witness_IntegerDigitsDenoteTheInteger :
    0 < 2 ^ (Precision.s.bias + 1) ∧ 2 ^ 128 - 1 < 2 ^ (Precision.s.bias + 1) := by decide

theorem witness_FractionDigitsTruncateTheFraction : 0 < 1 ∧ (2 ^ 18 - 1 : Nat) < 2 ^ 18 := by decide

/-- The leading `'1'` among the integer digits, and among the fractional digits. -/
theorem witness_NormalizeFindsTheLeadingOne :
    (Ch.one ∉ str "" ∧ str "101" ++ str "01" = str "" ++ Ch.one :: str "0101") ∧
      (Ch.one ∉ str "00" ∧ str "" ++ str "0011" = str "00" ++ Ch.one :: str "1") ∧
      Ch.one ∉ str "" ++ str "000" := by decide

theorem witness_NormalValuesAreDistinct :
    normalPattern .s 0x00800000#32 ∧
      rationalOf (normalValue .s (patternFields .s 0x00800000#32)) =
        rationalOf (normalValue .s (patternFields .s 0x00800000#32)) :=
  ⟨by unfold normalPattern; decide, rfl⟩

/-- The empty string and the string that pads to `+∞`. The strings `DECA` accepts are those of
`witness_DecaAgreesWithDecd`. -/
theorem witness_DecaEvaluatesTheFormula :
    (bitString (st 0#64 "").strIn ∧ expAllZero .s (st 0#64 "").strIn) ∧
      bitString (st 0#64 "011111111").strIn ∧ expAllOne .s (st 0#64 "011111111").strIn :=
  ⟨⟨bitString_of (by decide), by unfold expAllZero; decide⟩,
    bitString_of (by decide), by unfold expAllOne; decide⟩

/-- Exponent fields 1 and 254. -/
theorem witness_DecaAgreesWithDecd :
    (bitString (st 0#64 "000000001").strIn ∧ decaSupports .s (st 0#64 "000000001").strIn) ∧
      bitString (st 0#64 "01111111").strIn ∧ decaSupports .s (st 0#64 "01111111").strIn :=
  ⟨⟨bitString_of (by decide), by unfold decaSupports expAllZero expAllOne; decide⟩,
    bitString_of (by decide), by unfold decaSupports expAllZero expAllOne; decide⟩

theorem witness_ArithmeticRoundTrip :
    s1198.config.fracDigits = .exact ∧ normalPattern .s (operand .s s1198) := by
  unfold normalPattern; decide

theorem witness_EncodeOfDecodeIsTheString :
    s1198.config.fracDigits = .exact ∧ s1198.strIn.length = Precision.s.width ∧
      bitString s1198.strIn ∧ decaSupports .s s1198.strIn :=
  ⟨rfl, by decide, bitString_of (by decide),
    by unfold decaSupports expAllZero expAllOne; decide⟩

theorem witness_HostCopiesAResultIntoAnInput :
    ((after s1198).valid.getLsbD 1 = true ∧ (after s1198).strOut = some s1198.strIn) ∧
      ((after { s1198 with cmd := 0x01#8 }).valid.getLsbD 0 = true ∧
        (after { s1198 with cmd := 0x01#8 }).valOut = some 0x413FAE14#64) ∧
      (after s1198).valid.getLsbD 0 = false ∧
      (after { s1198 with cmd := 0x01#8 }).valid.getLsbD 1 = false := by decide

theorem witness_WrapperPlacesBytes : 0 < Precision.s.width / 8 ∧ 7 < Precision.d.width / 8 := by decide

end Sys2Proof.Tests
end

/-! The commands through their operations: one equation per operation of `exec`, for both precisions. -/

namespace Sys2Proof.Machine

theorem ofOp_op_prec (i : Instr) : Instr.ofOp i.op i.prec = i := by cases i <;> rfl

theorem exec_ofOp_encd (p : Precision) (s : State) :
    exec (Instr.ofOp .encd p) s = encodeDirect p s := by cases p <;> rfl

theorem exec_ofOp_decd (p : Precision) (s : State) :
    exec (Instr.ofOp .decd p) s = decodeDirect p s := by cases p <;> rfl

theorem exec_ofOp_enca (p : Precision) (s : State) :
    exec (Instr.ofOp .enca p) s = encodeArithmetic p s := by cases p <;> rfl

theorem exec_ofOp_deca (p : Precision) (s : State) :
    exec (Instr.ofOp .deca p) s = decodeArithmetic p s := by cases p <;> rfl

theorem exec_ofOp_xtrt (p : Precision) (s : State) :
    exec (Instr.ofOp .xtrt p) s = extractFields p s := by cases p <;> rfl

theorem exec_ofOp_rcon (p : Precision) (s : State) :
    exec (Instr.ofOp .rcon p) s = reconstruct p s := by cases p <;> rfl

/-- `ENCD` writes its operand in binary, on `W` characters (R70). -/
theorem encodeDirect_eq (p : Precision) (s : State) :
    encodeDirect p s = .next (s.withStr (bin p.width (patternOperand p s.valIn).toNat)) := by
  rw [encodeDirect, fieldString_patternFields]

/-- `ENCA` raises a status, or writes a string of `W` characters of the alphabet (R84). -/
theorem encodeArithmetic_cases (p : Precision) (s : State) :
    (∃ c, encodeArithmetic p s = .next (s.raised c)) ∨
      ∃ u, encodeArithmetic p s = .next (s.withStr u) ∧ u.length = p.width ∧
        alphabetOk u = true := by
  unfold encodeArithmetic
  rcases encodeFields_legal p (s.config.fracDigits.count p)
    (patternFields p (patternOperand p s.valIn)) with ⟨c, h, -⟩ | ⟨u, h, hu⟩
  · rw [h]; exact .inl ⟨c, rfl⟩
  · rw [h]; exact .inr ⟨u, rfl, hu⟩

end Sys2Proof.Machine

/-! `ENDIANNESS` and a transaction: configuring it commutes with every command (R71). -/

namespace Sys2Proof.Machine

/-- Set `ENDIANNESS` in the state an outcome answers, if it answers one. -/
def configureOutcome (e : Endianness) :
    Host.Outcome State Fault Refusal → Host.Outcome State Fault Refusal
  | .next t => .next (t.configure e)
  | .fault r => .fault r
  | .refused r => .refused r

@[simp] theorem configureOutcome_next (e : Endianness) (t : State) :
    configureOutcome e (.next t) = .next (t.configure e) := rfl

@[simp] theorem State.configure_outputs (s : State) (e : Endianness) :
    (s.configure e).outputs = s.outputs := rfl

theorem raise_configure (c : Status) (s : State) (e : Endianness) :
    raise c (s.configure e) = configureOutcome e (raise c s) := rfl

theorem withBitString_configure {s : State} {e : Endianness}
    {k k' : Str → Host.Outcome State Fault Refusal} (h : ∀ t, k' t = configureOutcome e (k t)) :
    withBitString (s.configure e) k' = configureOutcome e (withBitString s k) := by
  unfold withBitString
  rw [State.configure_strIn]
  split
  · exact h _
  · exact raise_configure _ s e

theorem encodeArithmetic_configure (p : Precision) (s : State) (e : Endianness) :
    encodeArithmetic p (s.configure e) = configureOutcome e (encodeArithmetic p s) := by
  unfold encodeArithmetic
  rw [State.configure_fracDigits, State.configure_valIn]
  split <;> rfl

theorem decodeArithmetic_configure (p : Precision) (s : State) (e : Endianness) :
    decodeArithmetic p (s.configure e) = configureOutcome e (decodeArithmetic p s) :=
  withBitString_configure fun t => by
    cases decodeFields p (stringFields p (fit p.width t)) <;> rfl

/-- No command reads or writes `ENDIANNESS` (R71). -/
theorem exec_configure (i : Instr) (s : State) (e : Endianness) :
    exec i (s.configure e) = configureOutcome e (exec i s) := by
  rw [← ofOp_op_prec i]
  cases i.op with
  | encd => rw [exec_ofOp_encd, exec_ofOp_encd]; rfl
  | decd => rw [exec_ofOp_decd, exec_ofOp_decd]; exact withBitString_configure fun _ => rfl
  | enca => rw [exec_ofOp_enca, exec_ofOp_enca]; exact encodeArithmetic_configure _ s e
  | deca => rw [exec_ofOp_deca, exec_ofOp_deca]; exact decodeArithmetic_configure _ s e
  | xtrt => rw [exec_ofOp_xtrt, exec_ofOp_xtrt]; exact withBitString_configure fun _ => rfl
  | rcon => rw [exec_ofOp_rcon, exec_ofOp_rcon]; exact withBitString_configure fun _ => rfl

/-- No transaction reads or writes `ENDIANNESS` (R71). -/
theorem step_configure (s : State) (e : Endianness) :
    step (s.configure e) = configureOutcome e (step s) := by
  have hp : presentable (s.configure e) = presentable s := rfl
  unfold step
  rw [hp, State.configure_cmd]
  split
  · cases decodeCmd s.cmd with
    | ok i => exact exec_configure i s e
    | error c => exact raise_configure c s e
  · rfl

end Sys2Proof.Machine

/-! The statements of spec/10_state.md about what the outputs depend on and what the encoders write. -/

namespace Sys2Proof.Machine

open Sys2Proof.Stated

/-- Once the outputs are forgotten, states with the same inputs and shaping parameters differ in
`ENDIANNESS` alone. -/
theorem resetOutputs_configure_eq {s s' : State} (hcmd : s.cmd = s'.cmd)
    (hval : s.valIn = s'.valIn) (hstr : s.strIn = s'.strIn)
    (hmax : s.config.strInMax = s'.config.strInMax)
    (hdig : s.config.fracDigits = s'.config.fracDigits) :
    s.resetOutputs.configure s'.config.endianness = s'.resetOutputs := by
  simp only [State.configure, State.resetOutputs, State.clearResults_eq, hcmd, hval, hstr, hmax,
    hdig]

/-- Settles O15: a transaction reads no output port, and `ENDIANNESS` commutes with it. -/
theorem outputsDependOnInputsOnly : Obligations.OutputsDependOnInputsOnly := by
  intro s s' t hcmd hval hstr hmax hdig hstep
  refine ⟨t.configure s'.config.endianness, ?_, State.configure_outputs t _⟩
  calc step s'
      = step s'.resetOutputs := (step_resetOutputs s').symm
    _ = step (s.resetOutputs.configure s'.config.endianness) := by
        rw [resetOutputs_configure_eq hcmd hval hstr hmax hdig]
    _ = configureOutcome s'.config.endianness (step s) := by
        rw [step_configure, step_resetOutputs]
    _ = .next (t.configure s'.config.endianness) := by rw [hstep, configureOutcome_next]

/-- Settles O25: `ENCD` writes `bin_W` of its operand, and `ENCA` raises or writes a legal string. -/
theorem encodedStringsHaveFixedWidth : Obligations.EncodedStringsHaveFixedWidth := by
  rintro p o s t u (rfl | rfl) hexec hout
  · rw [exec_ofOp_encd, encodeDirect_eq] at hexec
    cases hexec
    cases hout
    exact ⟨bin_length _ _, (alphabetOk_iff _).mp (alphabetOk_bin _ _)⟩
  · rw [exec_ofOp_enca] at hexec
    obtain ⟨c, h⟩ | ⟨v, h, hlen, hbits⟩ := encodeArithmetic_cases p s
    · rw [h] at hexec
      cases hexec
      cases hout
    · rw [h] at hexec
      cases hexec
      cases hout
      exact ⟨hlen, (alphabetOk_iff _).mp hbits⟩

end Sys2Proof.Machine

/-! Repetition of a transaction (spec/20_memory.md R40): what a command ends with keeps the inputs. -/

namespace Sys2Proof.Machine

/-- A command's ending and the state it began from differ in the output ports alone (R18). -/
theorem Ends.resetOutputs_eq {s t : State} (h : Ends s t) : t.resetOutputs = s.resetOutputs := by
  cases h <;> rfl

theorem resetOutputs_eq_of_step {s t : State} (h : step s = .next t) :
    t.resetOutputs = s.resetOutputs := by
  obtain ⟨-, hr⟩ | ⟨-, u, hu, hends⟩ := step_cases s
  · rw [hr] at h; cases h
  · rw [hu] at h; cases h; exact hends.resetOutputs_eq

/-- Settles O14: a transaction reads no output port and writes nothing else. -/
theorem transactionIsIdempotent : Obligations.TransactionIsIdempotent := by
  intro s t h
  calc step t = step t.resetOutputs := (step_resetOutputs t).symm
    _ = step s.resetOutputs := by rw [resetOutputs_eq_of_step h]
    _ = step s := step_resetOutputs s
    _ = .next t := h

end Sys2Proof.Machine

/-! The host's byte wrapper (spec/20_memory.md R44): where `scatterBytes` puts each byte of a pattern, and
what `gatherBytes` makes of the cells it wrote. -/

namespace Sys2Proof.Machine

theorem byteAt_lt (e : Endianness) {n k : Nat} (h : k < n) : byteAt e n k < n := by
  cases e with
  | little => exact h
  | big => simp only [byteAt]; omega

/-- The place of a byte and the byte at a place are one map: `byteAt` undoes itself (R44). -/
theorem byteAt_byteAt (e : Endianness) {n k : Nat} (h : k < n) :
    byteAt e n (byteAt e n k) = k := by
  cases e with
  | little => rfl
  | big => simp only [byteAt]; omega

theorem eight_mul_byteCount (p : Precision) : 8 * byteCount p = p.width := by cases p <;> rfl

theorem byteOf_map {l : List Nat} {j : Nat} (a : Nat) (f : Nat → BitVec 8) (h : j ∈ l) :
    byteOf (l.map fun i => (a + i, f i)) (a + j) = some (f j) := by
  induction l with
  | nil => cases h
  | cons i l ih =>
    rw [List.map_cons, byteOf]
    split
    · rw [show i = j by omega]
    · exact ih ((List.mem_cons.mp h).resolve_left (by omega))

/-- Byte `k` of the pattern stands at `a + byteAt e n k`, at either byte order (R44). -/
theorem byteOf_scatterBytes (e : Endianness) (p : Precision) (a : Nat) (v : BitVec 64) {k : Nat}
    (h : k < byteCount p) :
    byteOf (scatterBytes e p a v) (a + byteAt e (byteCount p) k) =
      some (v.extractLsb' (8 * k) 8) := by
  rw [scatterBytes, byteOf_map a _ (List.mem_range.mpr (byteAt_lt e h)), byteAt_byteAt e h]

/-- The low `8k` bits of a word and the byte above them are its low `8(k + 1)` bits. -/
theorem setWidth_or_byte (v : BitVec 64) (k : Nat) :
    (v.setWidth (8 * k)).setWidth 64 ||| (v.extractLsb' (8 * k) 8).setWidth 64 <<< (8 * k) =
      (v.setWidth (8 * (k + 1))).setWidth 64 := by
  apply BitVec.eq_of_getLsbD_eq
  intro i hi
  simp only [BitVec.getLsbD_or, BitVec.getLsbD_setWidth, BitVec.getLsbD_shiftLeft,
    BitVec.getLsbD_extractLsb', hi, decide_true, Bool.true_and]
  by_cases hlow : i < 8 * k
  · simp [hlow, show i < 8 * (k + 1) by omega]
  · have hbyte : i - 8 * k < 8 ↔ i < 8 * (k + 1) := by omega
    simp [hlow, hbyte, show i - 8 * k < 64 by omega, show 8 * k + (i - 8 * k) = i by omega]

/-- The first `k` bytes gathered from scattered cells are the low `8k` bits of the pattern (R44). -/
theorem gatherBytes_scatterBytes (e : Endianness) (p : Precision) (a : Nat) (v : BitVec 64) {k : Nat}
    (h : k ≤ byteCount p) :
    gatherBytes e (byteCount p) (scatterBytes e p a v) a k =
      some ((v.setWidth (8 * k)).setWidth 64) := by
  induction k with
  | zero => simp [gatherBytes, BitVec.eq_nil (v.setWidth 0)]
  | succ k ih =>
    simp only [gatherBytes, ih (Nat.le_of_succ_le h), byteOf_scatterBytes e p a v h,
      setWidth_or_byte]

/-- Settles O49: `byteAt` spelled out at each byte order. -/
theorem wrapperPlacesBytes : Obligations.WrapperPlacesBytes := by
  intro p a v k h
  exact ⟨byteOf_scatterBytes .little p a v h, byteOf_scatterBytes .big p a v h⟩

/-- Settles O50: all `W / 8` bytes are gathered. -/
theorem wrapperRoundTrip : Obligations.WrapperRoundTrip := by
  intro e p a v
  rw [assembleBytes, gatherBytes_scatterBytes e p a v le_rfl, eight_mul_byteCount]

end Sys2Proof.Machine

/-! The command decoder (spec/30_encoding.md R54): what the `OP` and the `PREC` field name, as R54 reads
them. -/

namespace Sys2Proof.Machine

/-- `OP` names no operation at the two reserved values, and else indexes R51's table. -/
theorem opOfField_eq : ∀ f : BitVec 3, opOfField f =
    if f = 0b110#3 ∨ f = 0b111#3 then none
    else some ([Op.encd, .decd, .enca, .deca, .xtrt, .rcon].getD f.toNat .encd) := by
  decide

/-- `PREC` names no precision when its upper bit is set, and else its lower bit chooses (R52). -/
theorem precOfField_eq : ∀ f : BitVec 2, precOfField f =
    if f.getLsbD 1 = true then none else some (if f.getLsbD 0 = false then .s else .d) := by
  decide

/-- The `PREC` field of a command word is read off its bits 4 and 3 (R50). -/
theorem precOfField_word (w : BitVec 8) : precOfField (w.extractLsb' 3 2) =
    if w.getLsbD 4 = true then none else some (if w.getLsbD 3 = false then .s else .d) := by
  have h4 : (w.extractLsb' 3 2).getLsbD 1 = w.getLsbD 4 := by simp
  have h3 : (w.extractLsb' 3 2).getLsbD 0 = w.getLsbD 3 := by simp
  rw [precOfField_eq, h4, h3]

/-- Settles O4, one `if` of R54 after the other: `RSV`, the reserved `OP` values, bit 4 of the word. -/
theorem decoderFollowsTheDecodeRule : Obligations.DecoderFollowsTheDecodeRule := by
  intro w
  simp only [decodeCmd, commandFields, opOfField_eq, precOfField_word]
  by_cases hrsv : w.extractLsb' 5 3 ≠ 0b000#3
  · rw [if_pos hrsv, if_pos hrsv]
  rw [if_neg hrsv, if_neg hrsv]
  by_cases hop : w.extractLsb' 0 3 = 0b110#3 ∨ w.extractLsb' 0 3 = 0b111#3
  · rw [if_pos hop, if_pos hop]
  rw [if_neg hop, if_neg hop]
  by_cases hprec : w.getLsbD 4 = true
  · simp only [if_pos hprec]
  · simp only [if_neg hprec]

end Sys2Proof.Machine

/-! The four classes of a FieldTriple (spec/40_fields.md R67): one equivalence per class. -/

namespace Sys2Proof

theorem Precision.expBits_pos (p : Precision) : 0 < p.expBits := by cases p <;> decide

end Sys2Proof

namespace Sys2Proof.Machine

theorem classify_zero_iff (p : Precision) (f : FieldTriple) :
    classify p f = .zero ↔ f.exp = 0 ∧ f.frac = 0 := by
  unfold classify
  split
  · split <;> simp_all
  · split <;> simp_all

theorem classify_subnormalPattern_iff (p : Precision) (f : FieldTriple) :
    classify p f = .subnormalPattern ↔ f.exp = 0 ∧ f.frac ≠ 0 := by
  unfold classify
  split
  · split <;> simp_all
  · split <;> simp_all

/-- The two tests on the exponent field exclude each other, because `EMAX_FIELD` is not 0. -/
theorem classify_specialPattern_iff (p : Precision) (f : FieldTriple) :
    classify p f = .specialPattern ↔ f.exp = p.expMax := by
  have hmax : p.expMax ≠ 0 := by rw [p.expMax_eq]; omega
  unfold classify
  split
  case isTrue hexp => rw [hexp]; split <;> simp [hmax.symm]
  case isFalse hexp => split <;> simp_all

/-- Settles O2: the equivalence of each class, the exponent bounds read as `≠ 0` and
`≠ EMAX_FIELD`. -/
theorem classesOfPatterns : Obligations.ClassesOfPatterns := by
  intro p f hexp _
  have hmax : p.expMax = 2 ^ p.expBits - 1 := rfl
  have hone : 1 < 2 ^ p.expBits := Nat.one_lt_two_pow p.expBits_pos.ne'
  refine ⟨?_, classify_zero_iff p f, classify_subnormalPattern_iff p f, ?_⟩
  · rw [classify_normal_iff]; omega
  · exact classify_specialPattern_iff p f

end Sys2Proof.Machine

/-! The characters of a string and the bits of the number it denotes (spec/00_scope.md R15). -/

namespace Sys2Proof.Machine

open Sys2Proof.Stated

theorem digit_eq_oneAt_zero (c : Ch) (t : Str) : c.digit = (oneAt (c :: t) 0).toNat := by
  cases c <;> rfl

@[simp] theorem oneAt_cons_succ (c : Ch) (t : Str) (i : Nat) :
    oneAt (c :: t) (i + 1) = oneAt t i := rfl

/-- Bit `k` of the number is the character `k` places from the right end (R15). -/
theorem testBit_uval (t : Str) (k : Nat) :
    (uval t).testBit k = (decide (k < t.length) && oneAt t (t.length - 1 - k)) := by
  induction t with
  | nil => simp
  | cons c t ih =>
    rw [uval_cons, mul_comm, Nat.testBit_two_pow_mul_add _ (uval_lt t), ih, List.length_cons]
    rcases lt_trichotomy k t.length with hk | rfl | hk
    · rw [show t.length + 1 - 1 - k = t.length - 1 - k + 1 by omega, oneAt_cons_succ]
      simp [hk, Nat.lt_succ_of_lt hk]
    · rw [digit_eq_oneAt_zero c t]
      cases h : oneAt (c :: t) 0 <;> simp [h]
    · have hdigit : c.digit < 2 ^ (k - t.length) :=
        c.digit_le_one.trans_lt (Nat.one_lt_two_pow (by omega))
      rw [Nat.testBit_lt_two_pow hdigit]
      simp [show ¬ k < t.length by omega, show ¬ k < t.length + 1 by omega]

/-- A string read as a binary fraction: character `i` has the weight `2^(−i−1)` (R66). -/
theorem uval_div_two_pow_length (t : Str) :
    (uval t : ℚ) / 2 ^ t.length =
      ∑ i ∈ Finset.range t.length, ((oneAt t i).toNat : ℚ) / 2 ^ (i + 1) := by
  induction t with
  | nil => simp
  | cons c t ih =>
    have htail : ∑ i ∈ Finset.range t.length, ((oneAt (c :: t) (i + 1)).toNat : ℚ) / 2 ^ (i + 1 + 1)
        = (uval t : ℚ) / 2 ^ t.length / 2 := by
      rw [ih, Finset.sum_div]
      exact Finset.sum_congr rfl fun i _ => by rw [oneAt_cons_succ, pow_succ _ (i + 1), div_div]
    rw [List.length_cons, Finset.sum_range_succ', htail, ← digit_eq_oneAt_zero, uval_cons]
    push_cast
    field_simp
    ring

theorem oneAt_slice (t : Str) (i j k : Nat) :
    oneAt (slice t i j) k = (decide (i + k < j) && oneAt t (i + k)) := by
  unfold oneAt slice
  rw [List.getElem?_drop, List.getElem?_take]
  split <;> simp [*]

/-- Fitting changes no character below the width: its padding is no `'1'` (R63). -/
theorem oneAt_fit (t : Str) {W i : Nat} (h : i < W) : oneAt (fit W t) i = oneAt t i := by
  unfold oneAt
  rw [fit_getElem? t h]
  cases t[i]? <;> simp

theorem slice_fit_length (t : Str) {W i j : Nat} (h : j ≤ W) :
    (slice (fit W t) i j).length = j - i := by
  simp [slice, h]

theorem oneAt_slice_fit (t : Str) {W i j k : Nat} (hj : j ≤ W) (hk : i + k < j) :
    oneAt (slice (fit W t) i j) k = oneAt t (i + k) := by
  rw [oneAt_slice, oneAt_fit t (by omega), decide_eq_true hk, Bool.true_and]

/-- A field of the fitted string, bit by bit: its lowest bit is the field's last character. -/
theorem testBit_uval_slice_fit (t : Str) {W i j : Nat} (hj : j ≤ W) (k : Nat) :
    (uval (slice (fit W t) i j)).testBit k = (decide (k < j - i) && oneAt t (j - 1 - k)) := by
  rw [testBit_uval, slice_fit_length t hj]
  by_cases hk : k < j - i
  · rw [oneAt_slice_fit t hj (by omega), show i + (j - i - 1 - k) = j - 1 - k by omega]
  · simp [hk]

end Sys2Proof.Machine

/-! The three fields of a fitted string (spec/40_fields.md R65) through the characters of the string. -/

namespace Sys2Proof.Machine

open Sys2Proof.Stated

theorem stringFields_fit_sign (p : Precision) (t : Str) :
    (stringFields p (fit p.width t)).sign = oneAt t 0 := by
  have hpos : 1 ≤ p.width := by have := p.width_eq; omega
  have hlt := uval_lt (slice (fit p.width t) 0 1)
  have hbit := testBit_uval_slice_fit t (i := 0) hpos 0
  rw [slice_fit_length t hpos] at hlt
  rw [Nat.testBit_zero, Nat.mod_eq_of_lt (by omega)] at hbit
  rw [stringFields, beq_eq_decide, hbit]
  rfl

theorem testBit_stringFields_fit_exp (p : Precision) (t : Str) (k : Nat) :
    (stringFields p (fit p.width t)).exp.testBit k =
      (decide (k < p.expBits) && oneAt t (p.expBits - k)) := by
  have hw := p.width_eq
  have h := testBit_uval_slice_fit t (i := 1) (show 1 + p.expBits ≤ p.width by omega) k
  rwa [Nat.add_sub_cancel_left] at h

theorem testBit_stringFields_fit_frac (p : Precision) (t : Str) (k : Nat) :
    (stringFields p (fit p.width t)).frac.testBit k =
      (decide (k < p.fracBits) && oneAt t (p.width - 1 - k)) := by
  have hw := p.width_eq
  have h := testBit_uval_slice_fit t (i := 1 + p.expBits) (le_refl p.width) k
  rwa [show p.width - (1 + p.expBits) = p.fracBits by omega] at h

/-- The fraction field over `2^FB` is `f`, the sum of its characters' weights (R66). -/
theorem stringFields_fit_frac_div (p : Precision) (t : Str) :
    ((stringFields p (fit p.width t)).frac : ℚ) / 2 ^ p.fracBits =
      ∑ i ∈ Finset.range p.fracBits,
        ((oneAt t (1 + p.expBits + i)).toNat : ℚ) / 2 ^ (i + 1) := by
  have hw := p.width_eq
  have h := uval_div_two_pow_length (slice (fit p.width t) (1 + p.expBits) p.width)
  rw [slice_fit_length t le_rfl, show p.width - (1 + p.expBits) = p.fracBits by omega] at h
  refine h.trans (Finset.sum_congr rfl fun i hi => ?_)
  have hlt := Finset.mem_range.mp hi
  rw [oneAt_slice_fit t le_rfl (by omega)]

/-- The extractor gives back the fields of a pattern from the pattern in binary (R65). -/
theorem stringFields_bin (p : Precision) (x : BitVec p.width) :
    stringFields p (bin p.width x.toNat) = patternFields p x := by
  rw [stringFields_eq p (bin_length _ _) (alphabetOk_bin _ _), uval_bin,
    Nat.mod_eq_of_lt x.isLt, BitVec.ofNat_toNat, BitVec.setWidth_eq]

end Sys2Proof.Machine

/-! The sub-units `XTRT` and `RCON` (spec/40_fields.md R68, R69) in the words of the statements. -/

namespace Sys2Proof

theorem Precision.expBits_le (p : Precision) : p.expBits ≤ 11 := by cases p <;> decide

theorem Precision.fracBits_le (p : Precision) : p.fracBits ≤ 52 := by cases p <;> decide

end Sys2Proof

namespace Sys2Proof.Machine

open Sys2Proof.Stated

/-- The two outcomes of the alphabet check, as the statements say them (R64, R98). -/
theorem withBitString_of_bitString {s : State} {k : Str → Host.Outcome State Fault Refusal}
    (h : bitString s.strIn) : withBitString s k = k s.strIn :=
  withBitString_of_ok ((alphabetOk_iff _).mpr h)

theorem withBitString_of_not_bitString {s : State} {k : Str → Host.Outcome State Fault Refusal}
    (h : ¬ bitString s.strIn) : withBitString s k = .next (afterStatus s 3#3) :=
  withBitString_of_bad (Bool.eq_false_iff.mpr fun hok => h ((alphabetOk_iff _).mp hok))

theorem State.withFields_eq_afterFields (s : State) (f : FieldTriple) :
    s.withFields f =
      afterFields s (BitVec.ofBool f.sign) (BitVec.ofNat 11 f.exp) (BitVec.ofNat 52 f.frac) := rfl

theorem State.withSig_eq_afterSig (s : State) (n : Nat) :
    s.withSig n = afterSig s (BitVec.ofNat 53 n) := rfl

theorem exec_xtrt_of_bitString (p : Precision) {s : State} (h : bitString s.strIn) :
    exec (Instr.ofOp .xtrt p) s = .next (s.withFields (stringFields p (fit p.width s.strIn))) := by
  rw [exec_ofOp_xtrt, extractFields, withBitString_of_bitString h]

theorem exec_rcon_of_bitString (p : Precision) {s : State} (h : bitString s.strIn) :
    exec (Instr.ofOp .rcon p) s =
      .next (s.withSig (significand p (stringFields p (fit p.width s.strIn)).frac)) := by
  rw [exec_ofOp_rcon, reconstruct, withBitString_of_bitString h]

/-- `SIG_OUT` holds the whole significand: it has at most 53 bits (R29). -/
theorem toNat_ofNat_significand (p : Precision) {F : Nat} (h : F < 2 ^ p.fracBits) :
    (BitVec.ofNat 53 (significand p F)).toNat = 2 ^ p.fracBits + F := by
  have hle : 2 ^ p.fracBits ≤ 2 ^ 52 := Nat.pow_le_pow_right (by decide) p.fracBits_le
  rw [significand, BitVec.toNat_ofNat, Nat.mod_eq_of_lt (by omega)]

/-- Settles O45: each bit of the ports is a bit of the field it holds, and that a character. -/
theorem xtrtWritesTheFields : Obligations.XtrtWritesTheFields := by
  intro p s
  constructor
  · intro hbits
    rw [exec_xtrt_of_bitString p hbits, State.withFields_eq_afterFields]
    refine ⟨_, _, _, rfl, ?_, fun k hk => ?_, fun k hk => ?_⟩
    · rw [stringFields_fit_sign]; cases oneAt s.strIn 0 <;> rfl
    · rw [BitVec.getLsbD_ofNat, testBit_stringFields_fit_exp, decide_eq_true hk, Bool.true_and]
    · rw [BitVec.getLsbD_ofNat, testBit_stringFields_fit_frac, decide_eq_true hk, Bool.true_and]
  · intro hbad
    rw [exec_ofOp_xtrt, extractFields, withBitString_of_not_bitString hbad]

/-- Settles O46: `SIG_OUT` is `2^FB + F` uncut, and `F / 2^FB` the sum of the characters' weights. -/
theorem rconWritesTheSignificand : Obligations.RconWritesTheSignificand := by
  intro p s
  constructor
  · intro hbits
    rw [exec_rcon_of_bitString p hbits, State.withSig_eq_afterSig]
    refine ⟨_, rfl, ?_⟩
    rw [toNat_ofNat_significand p (stringFields_frac_lt p s.strIn), Nat.cast_add, add_div,
      stringFields_fit_frac_div, Nat.cast_pow, Nat.cast_ofNat, div_self (by positivity)]
  · intro hbad
    rw [exec_ofOp_rcon, reconstruct, withBitString_of_not_bitString hbad]

/-- Settles O47: `XTRT` extracts the operand's own fields, and the ports are wide enough for them. -/
theorem xtrtOfEncdGivesThePatternFields : Obligations.XtrtOfEncdGivesThePatternFields := by
  intro p s
  set x := operand p s
  set u := bin p.width x.toNat
  have hbits : bitString u := (alphabetOk_iff u).mp (alphabetOk_bin _ _)
  have hencd : exec (Instr.ofOp .encd p) s = .next (s.withStr u) := by
    rw [exec_ofOp_encd, encodeDirect_eq, patternOperand_eq]; rfl
  have hxtrt : exec (Instr.ofOp .xtrt p) { s.withStr u with strIn := u } =
      .next (State.withFields { s with strIn := u } (patternFields p x)) := by
    rw [exec_xtrt_of_bitString p hbits, fit_of_length (bin_length _ _), stringFields_bin]
    rfl
  have hexp : (patternFields p x).exp < 2 ^ 11 :=
    (patternFields_exp_lt p x).trans_le (Nat.pow_le_pow_right (by decide) p.expBits_le)
  have hfrac : (patternFields p x).frac < 2 ^ 52 :=
    (patternFields_frac_lt p x).trans_le (Nat.pow_le_pow_right (by decide) p.fracBits_le)
  refine ⟨s.withStr u, u, _, _, _, hencd, rfl, hxtrt, rfl, ?_, ?_⟩
  · rw [BitVec.toNat_ofNat, Nat.mod_eq_of_lt hexp, patternFields_exp]; rfl
  · rw [BitVec.toNat_ofNat, Nat.mod_eq_of_lt hfrac, patternFields_frac]; rfl

end Sys2Proof.Machine

/-! The direct strategy (spec/41_direct_layout.md R70, R73, R74) in the words of the statements: the string
of a pattern, the bits that `DECD` stores, and that each undoes the other. -/

namespace Sys2Proof.Machine

open Sys2Proof.Stated

/-- `str_W(x)` of the statements is `bin_W(x)`, the model's (R62). -/
theorem strOf_eq_bin {W : Nat} (x : BitVec W) : strOf x = bin W x.toNat := by
  apply List.ext_getElem?
  intro i
  by_cases hi : i < W
  · rw [bin_getElem? hi, strOf, List.getElem?_map, List.getElem?_range hi]
    rfl
  · simp [strOf, hi]

/-- `ENCD` writes its operand in binary and raises nothing (R70). -/
theorem exec_encd (p : Precision) (s : State) :
    exec (Instr.ofOp .encd p) s = .next (s.withStr (bin p.width (operand p s).toNat)) := by
  rw [exec_ofOp_encd, encodeDirect_eq, patternOperand_eq]
  rfl

theorem exec_decd_of_bitString (p : Precision) {s : State} (h : bitString s.strIn) :
    exec (Instr.ofOp .decd p) s =
      .next (s.withVal (zext64 (fillStorage p.width s.strIn (0#p.width)))) := by
  rw [exec_ofOp_decd, decodeDirect, withBitString_of_bitString h]

/-- A storage of `W` zeros, filled: bit `k` is the character `k` places from position `W − 1`, and 0
where the string has none (R73). -/
theorem fillStorage_zero_getLsbD {W : Nat} (t : Str) (k : Nat) :
    (fillStorage W t (0#W)).getLsbD k = (decide (k < W) && oneAt t (W - 1 - k)) := by
  rw [fillStorage_getLsbD W t _ k le_rfl]
  by_cases hk : k < W
  · rw [if_pos hk, decide_eq_true hk, Bool.true_and, oneAt]
    cases t[W - 1 - k]? <;> simp
  · simp [hk]

theorem bitString_bin (N n : Nat) : bitString (bin N n) :=
  (alphabetOk_iff _).mp (alphabetOk_bin N n)

/-- Filling the storage undoes `bin` (R74 (a)). -/
theorem fillStorage_bin {W : Nat} (x : BitVec W) : fillStorage W (bin W x.toNat) (0#W) = x := by
  rw [fillStorage_eq W (alphabetOk_bin _ _), fit_of_length (bin_length _ _), uval_bin,
    Nat.mod_eq_of_lt x.isLt, BitVec.ofNat_toNat, BitVec.setWidth_eq]

/-- `bin` undoes filling the storage on a bit string of `W` characters (R74 (b)). -/
theorem bin_fillStorage {W : Nat} {t : Str} (hlen : t.length = W) (hbits : bitString t) :
    bin W (fillStorage W t (0#W)).toNat = t := by
  have hok : alphabetOk t = true := (alphabetOk_iff t).mpr hbits
  have hlt : uval t < 2 ^ W := hlen ▸ uval_lt t
  rw [fillStorage_eq W hok, fit_of_length hlen, BitVec.toNat_ofNat, Nat.mod_eq_of_lt hlt, ← hlen,
    bin_uval hok]

/-- A pattern on `VAL_OUT` that the host copies to `VAL_IN` is read back whole (R22, R24). -/
theorem operand_zext64 (p : Precision) (s : State) (x : BitVec p.width) :
    operand p { s with valIn := zext64 x } = x :=
  (BitVec.setWidth_setWidth_of_le x p.width_le).trans (BitVec.setWidth_eq x)

/-- Settles O24: `bin` and the storage fill undo each other, and so do the commands that run them. -/
theorem directStrategyLaws : Obligations.DirectStrategyLaws := by
  refine ⟨fun p s => ?_, fun p s hlen hbits => ?_⟩
  · set u := bin p.width (operand p s).toNat
    set t : State := { s.withStr u with strIn := u }
    have hdecd : exec (Instr.ofOp .decd p) t = .next (t.withVal (zext64 (operand p s))) := by
      rw [exec_decd_of_bitString p (bitString_bin _ _), fillStorage_bin]
    exact ⟨_, u, _, exec_encd p s, rfl, bin_length _ _, hdecd, rfl⟩
  · set x := fillStorage p.width s.strIn (0#p.width)
    set t : State := { s.withVal (zext64 x) with valIn := zext64 x }
    have hencd : exec (Instr.ofOp .encd p) t = .next (t.withStr s.strIn) := by
      rw [exec_encd, operand_zext64, bin_fillStorage hlen hbits]
    exact ⟨_, _, _, exec_decd_of_bitString p hbits, rfl, hencd, rfl⟩

/-- Settles O16: configuring `ENDIANNESS` commutes with a transaction and touches no output. -/
theorem endiannessChangesNoResult : Obligations.EndiannessChangesNoResult := by
  intro s t e h
  refine ⟨?_, State.configure_outputs t e⟩
  rw [step_configure, h, configureOutcome_next]

/-- Settles O22: `ENCD` writes its operand in binary, which is the operand's string. -/
theorem encdWritesThePatternString : Obligations.EncdWritesThePatternString := by
  intro p s
  rw [exec_encd, strOf_eq_bin]
  rfl

/-- Settles O23: zero extension keeps the filled bits, and each of them is a character. -/
theorem decdWritesTheStringPattern : Obligations.DecdWritesTheStringPattern := by
  intro p s
  constructor
  · intro hbits
    refine ⟨_, exec_decd_of_bitString p hbits, fun k hk => ?_⟩
    rw [zext64, BitVec.getLsbD_setWidth, decide_eq_true hk, Bool.true_and, fillStorage_zero_getLsbD]
  · intro hbad
    rw [exec_ofOp_decd, decodeDirect, withBitString_of_not_bitString hbad]

end Sys2Proof.Machine

/-! Steps 2 to 4 and 5 to 7 of the arithmetic encoder (spec/42_arithmetic.md R78 to R83), one step at a time:
the digits, the leading `'1'` of the joined digits, and the assembled string. -/

namespace Sys2Proof.Machine

open Sys2Proof.Stated

/-- Settles O36: the integer digits are `I` in binary on as many characters as `I` has bits. -/
theorem integerDigitsDenoteTheInteger : Obligations.IntegerDigitsDenoteTheInteger := by
  intro p I hI
  rw [integerDigits_eq p hI]
  refine ⟨bitString_bin _ _, ?_, ?_, fun hpos => ?_, ?_⟩
  · rw [uval_bin, Nat.mod_eq_of_lt (Nat.lt_size_self I)]
  · rintro rfl
    rfl
  · rw [bin_leading_one hpos le_rfl, Nat.sub_self]
    rfl
  · rw [bin_length]
    exact Nat.size_le.mpr hI

/-- The natural quotient is the rational one rounded down. -/
theorem natDiv_le_and_lt (a : Nat) {b : Nat} (h : 0 < b) :
    ((a / b : Nat) : ℚ) ≤ (a : ℚ) / b ∧ (a : ℚ) / b < (a / b : Nat) + 1 := by
  rw [← Nat.floor_div_eq_div (K := ℚ)]
  exact ⟨Nat.floor_le (by positivity), Nat.lt_floor_add_one _⟩

/-- Settles O37: the digits are the quotient `r × 2^n / den` on `n` characters, on which it fits. -/
theorem fractionDigitsTruncateTheFraction : Obligations.FractionDigitsTruncateTheFraction := by
  intro den n r hr
  have hden : 0 < den := Nat.zero_lt_of_lt hr
  have hfits : r * 2 ^ n / den < 2 ^ n := by
    rw [Nat.div_lt_iff_lt_mul hden, mul_comm]
    exact Nat.mul_lt_mul_of_pos_left hr (by positivity)
  have hscale : (r : ℚ) / den * 2 ^ n = ((r * 2 ^ n : Nat) : ℚ) / den := by
    push_cast
    ring
  rw [fractionDigits_eq n hr, bin_length, uval_bin, Nat.mod_eq_of_lt hfits, hscale]
  exact ⟨rfl, bitString_bin _ _, natDiv_le_and_lt _ hden⟩

/-- Step 4 on the joined digits: its cases (a) and (b) are one, the leading `'1'` at position `k` gives
`E = len(ID) − k − 1` (R80). -/
theorem normalizeDigits_eq (ID FD : Str) :
    normalizeDigits ID FD =
      (firstOne (ID ++ FD)).map fun q => ((ID.length : Int) - q.1 - 1, q.2) := by
  unfold normalizeDigits
  cases hI : firstOne ID with
  | some q =>
    obtain ⟨z, rfl, hz, hone⟩ := firstOne_some hI
    rw [List.append_assoc, List.cons_append, firstOne_append_cons _ hone, hz]
    rfl
  | none =>
    have hone := (firstOne_none_iff ID).mp hI
    cases hF : firstOne FD with
    | some q =>
      obtain ⟨z, rfl, hz, hone'⟩ := firstOne_some hF
      rw [← List.append_assoc, firstOne_append_cons _ (by simp [hone, hone'])]
      simp only [Option.map_some, List.length_append, hz]
      congr 2
      omega
    | none =>
      have hone' := (firstOne_none_iff FD).mp hF
      rw [(firstOne_none_iff (ID ++ FD)).mpr (by simp [hone, hone'])]
      rfl

/-- Settles O38: `firstOne` of the joined digits, with and without a `'1'`. -/
theorem normalizeFindsTheLeadingOne : Obligations.NormalizeFindsTheLeadingOne := by
  intro ID FD
  rw [normalizeDigits_eq]
  constructor
  · intro z M hz hjoined
    rw [hjoined, firstOne_append_cons M hz]
    rfl
  · intro hnone
    rw [(firstOne_none_iff _).mpr hnone]
    rfl

/-- Steps 5 to 7 outside the exponent range (R81). -/
theorem assembleString_out_of_range (p : Precision) (b : Bool) {E : Int} (M : Str)
    (h : E + p.bias < 1 ∨ 2 ^ p.expBits - 2 < E + p.bias) :
    assembleString p b E M = .error .range :=
  if_pos h

/-- Settles O34: the string in range is sign, exponent field and fitted mantissa, in this order. -/
theorem assembleRaisesRangeOutsideTheField : Obligations.AssembleRaisesRangeOutsideTheField := by
  intro p sg E M
  refine ⟨assembleString_out_of_range p sg M, fun hlow hhigh => ?_⟩
  have hfits : (E + p.bias).toNat < 2 ^ p.expBits := by
    have : ((2 ^ p.expBits : Nat) : Int) = 2 ^ p.expBits := by push_cast; rfl
    omega
  refine ⟨_, assembleString_in_range p sg hlow hhigh, ?_, ?_, ?_, fun i hi => ?_⟩
  · simp [p.width_eq, add_assoc]
  · cases sg <;> rfl
  · rw [List.append_assoc, List.drop_left' (bin_length _ _), List.take_left' (bin_length _ _),
      uval_bin, Nat.mod_eq_of_lt hfits]
    omega
  · rw [List.getElem?_append_right (by simp)]
    simp [fit_getElem? M hi]

end Sys2Proof.Machine

/-! `ENCA` on a FieldTriple of the normal class (spec/42_arithmetic.md R85): the digits that are kept, and the
string of the fields with the low fraction bits cleared. -/

namespace Sys2Proof.Machine

open Sys2Proof.Stated

/-- Step 4 on the digits of `num / den`: they are `N = floor(num × 2^n / den)` in binary, so the exponent
is read off the number of bits of `N` (R78 to R80). -/
theorem normalizeDigits_digits (p : Precision) (n : Nat) {num den : Nat} (hden : 0 < den)
    (h : num / den < 2 ^ (p.bias + 1)) :
    normalizeDigits (integerDigits p (num / den)) (fractionDigits den n (num % den)) =
      if num * 2 ^ n / den = 0 then none
      else some (((num * 2 ^ n / den).size : Int) - n - 1,
        bin ((num * 2 ^ n / den).size - 1) (num * 2 ^ n / den)) := by
  rw [normalizeDigits_eq, digits_eq p n hden h, integerDigits_eq p h, bin_length]
  have hsize : (num * 2 ^ n / den).size ≤ (num / den).size + n := by
    have hlt := (Nat.div_lt_iff_lt_mul hden).mp (Nat.lt_size_self (num / den))
    rw [Nat.size_le, Nat.div_lt_iff_lt_mul hden, pow_add, mul_right_comm]
    exact Nat.mul_lt_mul_of_pos_right hlt (by positivity)
  split
  case isTrue hzero =>
    rw [hzero, bin_zero, (firstOne_none_iff _).mpr (one_not_mem_zeros _)]
    rfl
  case isFalse hpos =>
    rw [bin_leading_one (Nat.pos_of_ne_zero hpos) hsize, firstOne_append_cons _ (one_not_mem_zeros _),
      Option.map_some, zeros_length, Nat.cast_sub hsize, Nat.cast_add]
    congr 2
    ring

/-- Fitting `L` digits to `W`: the digits below position `W` are cut, or the missing ones are 0
(R82). -/
theorem fit_bin_scaled (W L n : Nat) :
    fit W (bin L (n * 2 ^ L / 2 ^ W)) = bin W (n / 2 ^ (W - L) * 2 ^ (W - L)) := by
  rw [fit_eq_take, bin_length]
  rcases le_total W L with hle | hle
  · obtain ⟨d, rfl⟩ := Nat.exists_eq_add_of_le hle
    have hq : n * 2 ^ (W + d) / 2 ^ W = n * 2 ^ d := by
      rw [pow_add, mul_left_comm, Nat.mul_div_cancel_left _ (by positivity)]
    rw [hq, ← bin_append, List.take_left' (bin_length _ _), Nat.mul_div_cancel _ (by positivity),
      Nat.sub_eq_zero_of_le hle]
    simp [zeros]
  · obtain ⟨k, rfl⟩ := Nat.exists_eq_add_of_le hle
    have hq : n * 2 ^ L / 2 ^ (L + k) = n / 2 ^ k := by
      rw [pow_add, mul_comm n, Nat.mul_div_mul_left _ _ (by positivity)]
    have hlow : bin k (n / 2 ^ k * 2 ^ k) = zeros k := by
      rw [← bin_mod, Nat.mul_mod_left, bin_zero]
    rw [hq, Nat.add_sub_cancel_left, ← bin_append L k (n / 2 ^ k * 2 ^ k),
      Nat.mul_div_cancel _ (by positivity), hlow, List.take_of_length_le (by simp)]

theorem significand_lt (p : Precision) {F : Nat} (hF : F < 2 ^ p.fracBits) :
    significand p F < 2 * 2 ^ p.fracBits := by
  rw [significand]
  omega

/-- The significand shifted to `L` bits below its leading one has `L + 1` bits. -/
theorem size_significand_scaled (p : Precision) {F : Nat} (hF : F < 2 ^ p.fracBits) (L : Nat) :
    (significand p F * 2 ^ L / 2 ^ p.fracBits).size = L + 1 := by
  have hpos : 0 < 2 ^ p.fracBits := by positivity
  have hL : 0 < 2 ^ L := by positivity
  have hlt := significand_lt p hF
  apply le_antisymm
  · rw [Nat.size_le, Nat.div_lt_iff_lt_mul hpos, pow_succ]
    nlinarith
  · rw [Nat.succ_le_iff, Nat.lt_size, Nat.le_div_iff_mul_le hpos, significand]
    nlinarith

/-- The fields `ENCA` keeps with `digits` fractional digits (R85). With the leading one among the digits,
the fraction bits past the last digit are cleared; without it, nothing but the sign is left. -/
def truncatedFields (p : Precision) (digits : Nat) (f : FieldTriple) : FieldTriple :=
  if p.bias ≤ f.exp + digits then
    { f with frac :=
        f.frac / 2 ^ (p.fracBits - (f.exp + digits - p.bias)) *
          2 ^ (p.fracBits - (f.exp + digits - p.bias)) }
  else ⟨f.sign, 0, 0⟩

theorem zeroString_eq_fieldString (p : Precision) (b : Bool) :
    zeroString p b = fieldString p ⟨b, 0, 0⟩ := by
  rw [zeroString, fieldString, bin_zero, bin_zero]

/-- Clearing low bits of a significand keeps the implicit one. -/
theorem bin_significand_truncated (p : Precision) (F L : Nat) :
    bin p.fracBits
        (significand p F / 2 ^ (p.fracBits - L) * 2 ^ (p.fracBits - L)) =
      bin p.fracBits (F / 2 ^ (p.fracBits - L) * 2 ^ (p.fracBits - L)) := by
  have hone : 2 ^ p.fracBits = 2 ^ (p.fracBits - (p.fracBits - L)) * 2 ^ (p.fracBits - L) := by
    rw [← pow_add]
    congr 1
    omega
  have hsplit : significand p F / 2 ^ (p.fracBits - L) * 2 ^ (p.fracBits - L) =
      F / 2 ^ (p.fracBits - L) * 2 ^ (p.fracBits - L) + 2 ^ p.fracBits := by
    conv_lhs => rw [significand, hone]
    rw [add_comm, Nat.add_mul_div_right _ _ (by positivity), add_mul, ← hone]
  rw [hsplit, ← bin_mod, Nat.add_mod_right, bin_mod]

/-- The value of normal fields is below `2^(BIAS + 1)`: the integer digit loop has turns enough (R78). -/
theorem normalValue_quotient_lt (p : Precision) {f : FieldTriple} (he : f.exp ≤ 2 * p.bias)
    (hF : f.frac < 2 ^ p.fracBits) :
    (normalValue p f).num / (normalValue p f).den < 2 ^ (p.bias + 1) := by
  have hexp : 2 ^ f.exp ≤ 2 ^ (2 * p.bias) := Nat.pow_le_pow_right (by decide) he
  have hmul : 2 ^ (p.bias + 1) * 2 ^ (p.bias + p.fracBits) =
      2 * 2 ^ p.fracBits * 2 ^ (2 * p.bias) := by ring
  rw [Nat.div_lt_iff_lt_mul (by simp [normalValue]), normalValue, hmul]
  exact Nat.mul_lt_mul_of_lt_of_le (significand_lt p hF) hexp (by positivity)

/-- The digits of normal fields as one number: their significand, moved to the last digit (R85). -/
theorem normalValue_scaled (p : Precision) (digits : Nat) (f : FieldTriple) :
    (normalValue p f).num * 2 ^ digits / (normalValue p f).den =
      significand p f.frac * 2 ^ (f.exp + digits) / 2 ^ p.bias / 2 ^ p.fracBits := by
  simp only [normalValue]
  rw [mul_assoc, ← pow_add, pow_add 2 p.bias, Nat.div_div_eq_div_mul]

/-- Steps 1 to 7 on the value of normal fields (R85). -/
theorem encodeValue_normalValue (p : Precision) (digits : Nat) {f : FieldTriple} (hpos : 1 ≤ f.exp)
    (he : f.exp ≤ 2 * p.bias) (hF : f.frac < 2 ^ p.fracBits) :
    encodeValue p digits (normalValue p f) = .ok (fieldString p (truncatedFields p digits f)) := by
  have hden : 0 < (normalValue p f).den := by simp [normalValue]
  unfold encodeValue truncatedFields
  simp only
  rw [normalizeDigits_digits p digits hden (normalValue_quotient_lt p he hF), normalValue_scaled]
  by_cases hE : p.bias ≤ f.exp + digits
  · obtain ⟨L, hL⟩ := Nat.exists_eq_add_of_le hE
    have hscaled : significand p f.frac * 2 ^ (f.exp + digits) / 2 ^ p.bias =
        significand p f.frac * 2 ^ L := by
      rw [hL, pow_add, mul_left_comm, Nat.mul_div_cancel_left _ (by positivity)]
    have hsize := size_significand_scaled p hF L
    have hexp : ((L + 1 : Nat) : Int) - digits - 1 + p.bias = f.exp := by omega
    have hhigh : ((L + 1 : Nat) : Int) - digits - 1 + p.bias ≤ 2 ^ p.expBits - 2 := by
      have hmax := p.expMax_eq
      have : ((2 ^ p.expBits : Nat) : Int) = 2 ^ p.expBits := by push_cast; rfl
      rw [Precision.expMax] at hmax
      omega
    rw [hscaled, if_neg (Nat.size_pos.mp (by omega)).ne', if_pos hE, hsize]
    simp only
    rw [assembleString_in_range p _ (by omega) hhigh, hexp, Int.toNat_natCast, Nat.add_sub_cancel,
      fit_bin_scaled, bin_significand_truncated, show f.exp + digits - p.bias = L by omega]
    rfl
  · have hzero : significand p f.frac * 2 ^ (f.exp + digits) / 2 ^ p.bias / 2 ^ p.fracBits = 0 := by
      have hle : 2 * 2 ^ (f.exp + digits) ≤ 2 ^ p.bias := by
        rw [← pow_succ']
        exact Nat.pow_le_pow_right (by decide) (by omega)
      rw [Nat.div_div_eq_div_mul]
      apply Nat.div_eq_of_lt
      calc significand p f.frac * 2 ^ (f.exp + digits)
          < 2 * 2 ^ p.fracBits * 2 ^ (f.exp + digits) :=
            Nat.mul_lt_mul_of_pos_right (significand_lt p hF) (by positivity)
        _ = 2 * 2 ^ (f.exp + digits) * 2 ^ p.fracBits := by ring
        _ ≤ 2 ^ p.bias * 2 ^ p.fracBits := Nat.mul_le_mul_right _ hle
    rw [hzero, if_pos rfl, if_neg hE]
    simp only
    rw [zeroString_eq_fieldString]
    rfl

end Sys2Proof.Machine

/-! `ENCA` on patterns (spec/42_arithmetic.md R84, R85, R89) in the words of the statements. -/

namespace Sys2Proof.Machine

open Sys2Proof.Stated

theorem signBit_eq (p : Precision) (x : BitVec p.width) :
    signBit p x = (patternFields p x).sign := rfl

theorem expField_eq (p : Precision) (x : BitVec p.width) :
    expField p x = (patternFields p x).exp := (patternFields_exp p x).symm

theorem fracField_eq (p : Precision) (x : BitVec p.width) :
    fracField p x = (patternFields p x).frac := (patternFields_frac p x).symm

theorem strOf_eq_fieldString (p : Precision) (x : BitVec p.width) :
    strOf x = fieldString p (patternFields p x) := by
  rw [strOf_eq_bin, fieldString_patternFields]

/-- The fields of a FieldTriple that fit their widths can be read back from its string. -/
theorem fieldString_injective (p : Precision) {f g : FieldTriple}
    (hfe : f.exp < 2 ^ p.expBits) (hfF : f.frac < 2 ^ p.fracBits)
    (hge : g.exp < 2 ^ p.expBits) (hgF : g.frac < 2 ^ p.fracBits)
    (h : fieldString p f = fieldString p g) : f = g := by
  rw [← patternFields_fieldsPattern p hfe hfF, ← patternFields_fieldsPattern p hge hgF] at h ⊢
  rw [fieldString_patternFields, fieldString_patternFields] at h
  rw [← stringFields_bin, h, stringFields_bin]

/-- The exponent field of the normal class, as R67 bounds it and as the bias does. -/
theorem normalPattern_iff (p : Precision) (x : BitVec p.width) :
    normalPattern p x ↔ 1 ≤ (patternFields p x).exp ∧ (patternFields p x).exp ≤ 2 * p.bias := by
  have hmax : 2 ^ p.expBits - 1 = 2 * p.bias + 1 := p.expMax_eq
  rw [normalPattern, expField_eq]
  omega

/-- On the normal class `ENCA` gives the string of the fields it keeps, at any number of digits. -/
theorem encodeFields_of_normalPattern (p : Precision) (digits : Nat) {x : BitVec p.width}
    (h : normalPattern p x) :
    encodeFields p digits (patternFields p x) =
      .ok (fieldString p (truncatedFields p digits (patternFields p x))) := by
  obtain ⟨hpos, hle⟩ := (normalPattern_iff p x).mp h
  have hclass : classify p (patternFields p x) = .normal := by
    rw [classify_normal_iff, p.expMax_eq]
    omega
  rw [encodeFields, hclass]
  exact encodeValue_normalValue p digits hpos hle (patternFields_frac_lt p x)

/-- With a digit for every fraction bit nothing is cleared. -/
theorem truncatedFields_eq_self (p : Precision) {digits : Nat} {f : FieldTriple}
    (h : p.bias + p.fracBits ≤ f.exp + digits) : truncatedFields p digits f = f := by
  rw [truncatedFields, if_pos (by omega), Nat.sub_eq_zero_of_le (by omega), pow_zero, Nat.div_one,
    Nat.mul_one]

/-- The kept fields are the operand's own exactly when its leading one is among the digits and the bits
cleared are 0. -/
theorem truncatedFields_eq_self_iff (p : Precision) (digits : Nat) {f : FieldTriple}
    (hpos : 1 ≤ f.exp) :
    truncatedFields p digits f = f ↔
      p.bias ≤ f.exp + digits ∧ 2 ^ (p.fracBits - (f.exp + digits - p.bias)) ∣ f.frac := by
  obtain ⟨sg, e, F⟩ := f
  simp only at hpos
  unfold truncatedFields
  split
  case isTrue h => simp [h, ← Nat.dvd_iff_div_mul_eq]
  case isFalse h => simp [h, Nat.ne_of_lt hpos]

theorem truncatedFields_exp_le (p : Precision) (digits : Nat) (f : FieldTriple) :
    (truncatedFields p digits f).exp ≤ f.exp := by
  unfold truncatedFields
  split
  · exact le_rfl
  · exact Nat.zero_le _

theorem truncatedFields_frac_le (p : Precision) (digits : Nat) (f : FieldTriple) :
    (truncatedFields p digits f).frac ≤ f.frac := by
  unfold truncatedFields
  split
  · exact Nat.div_mul_le_self _ _
  · exact Nat.zero_le _

/-- `k` of R85 through the exponent field, without its integer subtraction. -/
theorem clearedBits_eq (p : Precision) {digits : Nat} {x : BitVec p.width}
    (h : p.bias ≤ (patternFields p x).exp + digits) :
    clearedBits p digits x = p.fracBits - ((patternFields p x).exp + digits - p.bias) := by
  rw [clearedBits, trueExp, expField_eq]
  omega

/-- The signed zero of the statements is the model's (R80 (c)). -/
theorem zeroString_eq_cons (p : Precision) (b : Bool) :
    zeroString p b = (if b then Ch.one else Ch.zero) :: List.replicate (p.width - 1) Ch.zero := by
  rw [p.width_eq, add_assoc, Nat.add_sub_cancel_left, List.replicate_add]
  cases b <;> rfl

/-- R85's three cases are the string of the kept fields: where `E0 ≥ 0`, `W` digits are enough for every
fraction bit. -/
theorem closedForm_eq (p : Precision) {digits : Nat} (hdigits : p.width ≤ digits)
    (x : BitVec p.width) :
    closedForm p digits x = fieldString p (truncatedFields p digits (patternFields p x)) := by
  have hw := p.width_eq
  have htrue : trueExp p x = (patternFields p x).exp - p.bias := by rw [trueExp, expField_eq]
  unfold closedForm
  split
  case isTrue hE =>
    rw [truncatedFields_eq_self p (by omega), strOf_eq_fieldString]
  case isFalse =>
    split
    case isTrue hE =>
      have hbias : p.bias ≤ (patternFields p x).exp + digits := by omega
      have hpattern : patternOf p (signBit p x) (expField p x)
          (fracField p x / 2 ^ clearedBits p digits x * 2 ^ clearedBits p digits x) =
          fieldsPattern p (truncatedFields p digits (patternFields p x)) := by
        rw [truncatedFields, if_pos hbias, ← clearedBits_eq p hbias, signBit_eq, expField_eq,
          fracField_eq]
        rfl
      rw [hpattern, strOf_eq_fieldString, patternFields_fieldsPattern p
        ((truncatedFields_exp_le p digits _).trans_lt (patternFields_exp_lt p x))
        ((truncatedFields_frac_le p digits _).trans_lt (patternFields_frac_lt p x))]
    case isFalse hE =>
      have hbias : ¬ p.bias ≤ (patternFields p x).exp + digits := by omega
      rw [truncatedFields, if_neg hbias, ← zeroString_eq_fieldString, zeroString_eq_cons]
      rfl

/-- Settles O31: both sides are the string of the fields that are kept. -/
theorem encaClosedFormForAnyDigits : Obligations.EncaClosedFormForAnyDigits := by
  intro p digits x hdigits hnormal
  rw [encodeFields_of_normalPattern p digits hnormal, closedForm_eq p hdigits]

/-- `ENCA` writes the string its steps give for the operand's fields (R84). -/
theorem exec_enca_of_ok {p : Precision} {s : State} {u : Str}
    (h : encodeFields p (s.config.fracDigits.count p) (patternFields p (operand p s)) = .ok u) :
    exec (Instr.ofOp .enca p) s = .next (s.withStr u) := by
  have hop : patternOperand p s.valIn = operand p s := patternOperand_eq p s.valIn
  rw [exec_ofOp_enca, encodeArithmetic, hop, h]

/-- `ENCA` raises the status its operand's class has (R84). -/
theorem exec_enca_of_error {p : Precision} {s : State} {c : Status}
    (h : encodeFields p (s.config.fracDigits.count p) (patternFields p (operand p s)) = .error c) :
    exec (Instr.ofOp .enca p) s = .next (s.raised c) := by
  have hop : patternOperand p s.valIn = operand p s := patternOperand_eq p s.valIn
  rw [exec_ofOp_enca, encodeArithmetic, hop, h]
  rfl

theorem exec_enca_of_normalPattern {p : Precision} {s : State} (h : normalPattern p (operand p s)) :
    exec (Instr.ofOp .enca p) s = .next (s.withStr (fieldString p
      (truncatedFields p (s.config.fracDigits.count p) (patternFields p (operand p s))))) :=
  exec_enca_of_ok (encodeFields_of_normalPattern p _ h)

/-- Settles O32: R85 at the two digit counts of R10, both at least `W`. -/
theorem encaCompletesWithClosedForm : Obligations.EncaCompletesWithClosedForm := by
  intro p s hnormal
  rw [exec_enca_of_normalPattern hnormal,
    ← closedForm_eq p (s.config.fracDigits.width_le_count p) (operand p s)]
  cases s.config.fracDigits <;> rfl

theorem exec_encd_fieldString (p : Precision) (s : State) :
    exec (Instr.ofOp .encd p) s =
      .next (s.withStr (fieldString p (patternFields p (operand p s)))) := by
  rw [exec_encd, fieldString_patternFields]

theorem nextWithStr_inj {s : State} {u v : Str} :
    (Host.Outcome.next (s.withStr u) : Host.Outcome State Fault Refusal) = .next (s.withStr v) ↔
      u = v := by
  constructor
  · intro h
    injection h with h
    exact Option.some.inj (congrArg State.strOut h)
  · rintro rfl
    rfl

/-- Settles O33: the two strings agree where the kept fields are the operand's own. -/
theorem encaAlternativeAgreesExactlyWhen : Obligations.EncaAlternativeAgreesExactlyWhen := by
  intro p s hdigits hnormal
  set x := operand p s
  have hcount : s.config.fracDigits.count p = p.width := by rw [hdigits]; rfl
  have hpos : 1 ≤ (patternFields p x).exp := ((normalPattern_iff p x).mp hnormal).1
  have hsame : fieldString p (truncatedFields p p.width (patternFields p x)) =
      fieldString p (patternFields p x) ↔
      truncatedFields p p.width (patternFields p x) = patternFields p x :=
    ⟨fieldString_injective p
      ((truncatedFields_exp_le p _ _).trans_lt (patternFields_exp_lt p x))
      ((truncatedFields_frac_le p _ _).trans_lt (patternFields_frac_lt p x))
      (patternFields_exp_lt p x) (patternFields_frac_lt p x), congrArg _⟩
  have hexp : -(p.width : Int) ≤ trueExp p x ↔ p.bias ≤ (patternFields p x).exp + p.width := by
    rw [trueExp, expField_eq]
    omega
  rw [exec_enca_of_normalPattern hnormal, exec_encd_fieldString, nextWithStr_inj, hcount, hsame,
    truncatedFields_eq_self_iff p _ hpos, hexp, fracField_eq]
  exact and_congr_right fun hbias => by rw [clearedBits_eq p hbias]

/-- With `FRAC_EXACT` digits every normal pattern keeps all its bits (R8, R85). -/
theorem exec_enca_exact_of_normalPattern {p : Precision} {s : State}
    (hdigits : s.config.fracDigits = .exact) (h : normalPattern p (operand p s)) :
    exec (Instr.ofOp .enca p) s = .next (s.withStr (strOf (operand p s))) := by
  obtain ⟨hpos, -⟩ := (normalPattern_iff p _).mp h
  have hcount : s.config.fracDigits.count p = p.bias + p.fracBits - 1 := by rw [hdigits]; rfl
  rw [exec_enca_of_normalPattern h, hcount, truncatedFields_eq_self p (by omega),
    strOf_eq_fieldString]

/-- Zero fields are encoded without any digits, as their own string (R80 (c)). -/
theorem encodeFields_of_zero (p : Precision) (digits : Nat) {f : FieldTriple} (hexp : f.exp = 0)
    (hfrac : f.frac = 0) : encodeFields p digits f = .ok (fieldString p f) := by
  rw [encodeFields, (classify_zero_iff p f).mpr ⟨hexp, hfrac⟩]
  obtain ⟨sg, e, F⟩ := f
  cases hexp
  cases hfrac
  exact congrArg _ (zeroString_eq_fieldString p sg)

theorem exec_enca_of_zero {p : Precision} {s : State} (hexp : expField p (operand p s) = 0)
    (hfrac : fracField p (operand p s) = 0) :
    exec (Instr.ofOp .enca p) s = .next (s.withStr (strOf (operand p s))) := by
  rw [expField_eq] at hexp
  rw [fracField_eq] at hfrac
  rw [exec_enca_of_ok (encodeFields_of_zero p _ hexp hfrac), strOf_eq_fieldString]

/-- Settles O30: a supported pattern is a zero or a normal one, and `ENCD` writes `str_W(x)` of both. -/
theorem encaAgreesWithEncd : Obligations.EncaAgreesWithEncd := by
  intro p s hdigits hsupported
  obtain ⟨hzero, hspecial⟩ := hsupported
  have henca : exec (Instr.ofOp .enca p) s = .next (s.withStr (strOf (operand p s))) := by
    by_cases hexp : expField p (operand p s) = 0
    · exact exec_enca_of_zero hexp (hzero hexp)
    · have hlt : expField p (operand p s) < 2 ^ p.expBits := Nat.mod_lt _ (by positivity)
      refine exec_enca_exact_of_normalPattern hdigits ?_
      rw [normalPattern]
      omega
  exact ⟨henca, by rw [henca, exec_encd, strOf_eq_bin]⟩

/-- Settles O35: each class of operand ends with a string or with `UNSUPPORTED`. -/
theorem encaNeverRaisesRange : Obligations.EncaNeverRaisesRange := by
  intro p s
  have hunsupported {c : PatternClass} (hclass : classify p (patternFields p (operand p s)) = c)
      (hc : c = .subnormalPattern ∨ c = .specialPattern) :
      ∃ t, exec (Instr.ofOp .enca p) s = .next t ∧ t.status ≠ some 5#3 := by
    refine ⟨_, exec_enca_of_error (c := .unsupported) ?_, by simp [Status.code]⟩
    rw [encodeFields, hclass]
    rcases hc with rfl | rfl <;> rfl
  cases hclass : classify p (patternFields p (operand p s)) with
  | normal =>
    rw [classify_normal_iff, p.expMax_eq] at hclass
    have hlt := patternFields_exp_lt p (operand p s)
    have hmax : 2 ^ p.expBits - 1 = 2 * p.bias + 1 := p.expMax_eq
    have hnormal : normalPattern p (operand p s) := (normalPattern_iff p _).mpr (by omega)
    exact ⟨_, exec_enca_of_normalPattern hnormal, by simp [Status.code]⟩
  | zero =>
    obtain ⟨hexp, hfrac⟩ := (classify_zero_iff p _).mp hclass
    rw [← expField_eq] at hexp
    rw [← fracField_eq] at hfrac
    exact ⟨_, exec_enca_of_zero hexp hfrac, by simp [Status.code]⟩
  | subnormalPattern => exact hunsupported hclass (.inl rfl)
  | specialPattern => exact hunsupported hclass (.inr rfl)

end Sys2Proof.Machine

/-! The value of a pattern (spec/42_arithmetic.md R75): the formula's value is the model's, and the normal
pattern is read back from it. -/

namespace Sys2Proof.Machine

open Sys2Proof.Stated

/-- Settles O39: `(2^FB + F) × 2^e / 2^(BIAS + FB)` is the formula's `(1 + F / 2^FB) × 2^(e − BIAS)`. -/
theorem normalValueIsTheFormula : Obligations.NormalValueIsTheFormula := by
  intro p x
  rw [rationalOf, formulaValue, fracField_eq, expField_eq, zpow_sub₀ two_ne_zero, zpow_natCast,
    zpow_natCast, mul_assoc]
  simp only [normalValue, significand, signBit_eq]
  push_cast
  rw [pow_add]
  field_simp

theorem normalValue_num_pos (p : Precision) (f : FieldTriple) : 0 < (normalValue p f).num :=
  Nat.mul_pos (Nat.add_pos_left (by positivity) _) (by positivity)

theorem rationalOf_neg_iff {v : ExactValue} (hnum : 0 < v.num) (hden : 0 < v.den) :
    rationalOf v < 0 ↔ v.negative = true := by
  have hpos : 0 < (v.num : ℚ) / v.den := div_pos (Nat.cast_pos.mpr hnum) (Nat.cast_pos.mpr hden)
  rw [rationalOf]
  cases v.negative
  · simp [hpos.le]
  · simp [hpos]

/-- Exact values over one denominator that are the same non-zero rational are the same. -/
theorem eq_of_rationalOf_eq {v w : ExactValue} (hv : 0 < v.num) (hw : 0 < w.num) (hpos : 0 < v.den)
    (hden : v.den = w.den) (h : rationalOf v = rationalOf w) : v = w := by
  have hsign : v.negative = w.negative := by
    rw [Bool.eq_iff_iff, ← rationalOf_neg_iff hv hpos, ← rationalOf_neg_iff hw (hden ▸ hpos), h]
  have hden' : (v.den : ℚ) ≠ 0 := Nat.cast_ne_zero.mpr hpos.ne'
  have hnum : v.num = w.num := by
    rw [rationalOf, rationalOf, hsign, ← hden] at h
    have hquot : (v.num : ℚ) / v.den = w.num / v.den := mul_left_cancel₀ (by simp) h
    exact Nat.cast_injective ((div_left_inj' hden').mp hquot)
  cases v
  cases w
  cases hsign
  cases hden
  cases hnum
  rfl

/-- The pattern of normal fields is the one the value of the fields leads back to (R87, R88). -/
theorem valuePattern_normalValue (p : Precision) {f : FieldTriple} (hF : f.frac < 2 ^ p.fracBits) :
    valuePattern p (normalValue p f) = fieldsPattern p f := by
  have hnum : (normalValue p f).num.log2 = p.fracBits + f.exp := by
    have hpos : 0 < 2 ^ f.exp := by positivity
    have hlt := significand_lt p hF
    rw [Nat.log2_eq_iff (normalValue_num_pos p f).ne', pow_succ, pow_add]
    simp only [normalValue]
    constructor
    · exact Nat.mul_le_mul_right _ (Nat.le_add_right _ _)
    · nlinarith
  have hfrac : (normalValue p f).num * 2 ^ p.fracBits / 2 ^ (p.fracBits + f.exp) =
      significand p f.frac := by
    rw [normalValue, mul_assoc, ← pow_add, add_comm f.exp, Nat.mul_div_cancel _ (by positivity)]
  unfold valuePattern
  simp only
  rw [hnum, hfrac, significand, Nat.add_sub_cancel_left]
  simp only [normalValue, Nat.log2_two_pow]
  congr
  omega

/-- Settles O40: the value leads back to the pattern. -/
theorem normalValuesAreDistinct : Obligations.NormalValuesAreDistinct := by
  intro p x y _ _ h
  have hvalue : normalValue p (patternFields p x) = normalValue p (patternFields p y) :=
    eq_of_rationalOf_eq (normalValue_num_pos p _) (normalValue_num_pos p _)
      (by simp [normalValue]) rfl h
  rw [← fieldsPattern_patternFields p x, ← fieldsPattern_patternFields p y,
    ← valuePattern_normalValue p (patternFields_frac_lt p x),
    ← valuePattern_normalValue p (patternFields_frac_lt p y), hvalue]

end Sys2Proof.Machine

/-! `DECA` (spec/42_arithmetic.md R86 to R88) and the laws of both strategies together (R89). -/

namespace Sys2Proof.Machine

open Sys2Proof.Stated

theorem stringFields_fit_exp_lt (p : Precision) (t : Str) :
    (stringFields p (fit p.width t)).exp < 2 ^ p.expBits := by
  have hw := p.width_eq
  have h := uval_lt (slice (fit p.width t) 1 (1 + p.expBits))
  rwa [slice_fit_length t (by omega), Nat.add_sub_cancel_left] at h

/-- Characters of the exponent field that are all alike are bits of the field that are all alike. -/
theorem expChars_eq_iff (p : Precision) (t : Str) (b : Bool) :
    (∀ k < p.expBits, oneAt t (1 + k) = b) ↔
      ∀ k, (stringFields p (fit p.width t)).exp.testBit k = (decide (k < p.expBits) && b) := by
  constructor
  · intro h k
    rw [testBit_stringFields_fit_exp]
    by_cases hk : k < p.expBits
    · rw [show p.expBits - k = 1 + (p.expBits - 1 - k) by omega, h _ (by omega)]
    · simp [hk]
  · intro h k hk
    have hbit := h (p.expBits - 1 - k)
    rwa [testBit_stringFields_fit_exp, decide_eq_true (by omega), Bool.true_and, Bool.true_and,
      show p.expBits - (p.expBits - 1 - k) = 1 + k by omega] at hbit

theorem expAllZero_iff (p : Precision) (t : Str) :
    expAllZero p t ↔ (stringFields p (fit p.width t)).exp = 0 := by
  rw [expAllZero, expChars_eq_iff]
  constructor
  · exact fun h => Nat.eq_of_testBit_eq fun k => by rw [h, Nat.zero_testBit, Bool.and_false]
  · exact fun h k => by rw [h, Nat.zero_testBit, Bool.and_false]

theorem expAllOne_iff (p : Precision) (t : Str) :
    expAllOne p t ↔ (stringFields p (fit p.width t)).exp = p.expMax := by
  rw [expAllOne, expChars_eq_iff, Precision.expMax]
  constructor
  · exact fun h => Nat.eq_of_testBit_eq fun k => by
      rw [h, Nat.testBit_two_pow_sub_one, Bool.and_true]
  · exact fun h k => by rw [h, Nat.testBit_two_pow_sub_one, Bool.and_true]

/-- A string read as a number: character `i` has the weight `2^(len − 1 − i)` (R15). -/
theorem uval_eq_sum (t : Str) :
    uval t = ∑ i ∈ Finset.range t.length, (oneAt t i).toNat * 2 ^ (t.length - 1 - i) := by
  induction t with
  | nil => rfl
  | cons c t ih =>
    rw [uval_cons, ih, List.length_cons, Finset.sum_range_succ', digit_eq_oneAt_zero c t, add_comm]
    congr 1
    refine Finset.sum_congr rfl fun i _ => ?_
    rw [oneAt_cons_succ]
    congr 2
    omega

/-- The exponent field is the sum of its characters' weights (R65). -/
theorem stringFields_fit_exp_eq_sum (p : Precision) (t : Str) :
    (stringFields p (fit p.width t)).exp =
      ∑ i ∈ Finset.range p.expBits, (oneAt t (1 + i)).toNat * 2 ^ (p.expBits - 1 - i) := by
  have hw := p.width_eq
  have h := uval_eq_sum (slice (fit p.width t) 1 (1 + p.expBits))
  rw [slice_fit_length t (by omega), Nat.add_sub_cancel_left] at h
  refine h.trans (Finset.sum_congr rfl fun i hi => ?_)
  have hlt := Finset.mem_range.mp hi
  rw [oneAt_slice_fit t (by omega) (by omega)]

/-- The fields of the pattern that `DECD` stores are those of the fitted string (R65, R73). -/
theorem patternFields_fillStorage (p : Precision) {t : Str} (h : bitString t) :
    patternFields p (fillStorage p.width t (0#p.width)) = stringFields p (fit p.width t) := by
  have hok : alphabetOk t = true := (alphabetOk_iff t).mpr h
  rw [fillStorage_eq p.width hok, stringFields_eq p (fit_length _ _) (alphabetOk_fit hok)]

/-- The strings that `DECA` supports are those of normal patterns (R67, R86). -/
theorem normalPattern_fillStorage_iff (p : Precision) {t : Str} (h : bitString t) :
    normalPattern p (fillStorage p.width t (0#p.width)) ↔ decaSupports p t := by
  have hlt := stringFields_fit_exp_lt p t
  have hmax : 2 ^ p.expBits - 1 = 2 * p.bias + 1 := p.expMax_eq
  rw [normalPattern_iff, patternFields_fillStorage p h, decaSupports, expAllZero_iff, expAllOne_iff,
    p.expMax_eq]
  omega

/-- `DECA` on a string it supports: the value of the string's fields leads back to the pattern `DECD`
stores (R88). -/
theorem exec_deca_of_decaSupports {p : Precision} {s : State} (hbits : bitString s.strIn)
    (hsupports : decaSupports p s.strIn) :
    exec (Instr.ofOp .deca p) s =
      .next (s.withVal (zext64 (fillStorage p.width s.strIn (0#p.width)))) := by
  obtain ⟨hzero, hone⟩ := hsupports
  rw [expAllZero_iff] at hzero
  rw [expAllOne_iff] at hone
  rw [exec_ofOp_deca, decodeArithmetic, withBitString_of_bitString hbits, decodeFields,
    if_neg (not_or.mpr ⟨hzero, hone⟩), valuePattern_normalValue p (stringFields_frac_lt p _),
    ← patternFields_fillStorage p hbits, fieldsPattern_patternFields]

theorem exec_deca_of_unsupported {p : Precision} {s : State} (hbits : bitString s.strIn)
    (hexp : expAllZero p s.strIn ∨ expAllOne p s.strIn) :
    exec (Instr.ofOp .deca p) s = .next (afterStatus s 4#3) := by
  rw [expAllZero_iff, expAllOne_iff] at hexp
  rw [exec_ofOp_deca, decodeArithmetic, withBitString_of_bitString hbits, decodeFields, if_pos hexp]
  rfl

/-- Settles O41: both decoders store the characters of the string. -/
theorem decaAgreesWithDecd : Obligations.DecaAgreesWithDecd := by
  intro p s hbits hsupports
  refine ⟨_, exec_deca_of_decaSupports hbits hsupports, exec_decd_of_bitString p hbits,
    fun k hk => ?_⟩
  rw [zext64, BitVec.getLsbD_setWidth, decide_eq_true hk, Bool.true_and, fillStorage_zero_getLsbD]

/-- The value of the pattern that `DECD` stores, through the characters of the string (R87). -/
theorem formulaValue_fillStorage (p : Precision) {t : Str} (h : bitString t) :
    formulaValue p (fillStorage p.width t (0#p.width)) =
      (-1) ^ (oneAt t 0).toNat *
        (1 + ∑ i ∈ Finset.range p.fracBits,
          ((oneAt t (1 + p.expBits + i)).toNat : ℚ) / 2 ^ (i + 1)) *
        (2 : ℚ) ^ ((∑ i ∈ Finset.range p.expBits,
          ((oneAt t (1 + i)).toNat : ℤ) * 2 ^ (p.expBits - 1 - i)) - (p.bias : ℤ)) := by
  rw [formulaValue, signBit_eq, fracField_eq, expField_eq, patternFields_fillStorage p h,
    stringFields_fit_sign, stringFields_fit_frac_div, stringFields_fit_exp_eq_sum]
  push_cast
  rfl

/-- Settles O42: the pattern that `DECD` stores is normal and its value is the formula's. -/
theorem decaEvaluatesTheFormula : Obligations.DecaEvaluatesTheFormula := by
  intro p s
  refine ⟨fun hbad => ?_, exec_deca_of_unsupported, fun hbits hsupports => ?_⟩
  · rw [exec_ofOp_deca, decodeArithmetic, withBitString_of_not_bitString hbad]
  · exact ⟨_, exec_deca_of_decaSupports hbits hsupports,
      (normalPattern_fillStorage_iff p hbits).mpr hsupports, formulaValue_fillStorage p hbits⟩

/-- Settles O43: `ENCA` writes the operand in binary, and `DECA` stores that string's characters. -/
theorem arithmeticRoundTrip : Obligations.ArithmeticRoundTrip := by
  intro p s hdigits hnormal
  set x := operand p s
  set u := bin p.width x.toNat
  set t : State := { s.withStr u with strIn := u }
  have henca : exec (Instr.ofOp .enca p) s = .next (s.withStr u) := by
    rw [exec_enca_exact_of_normalPattern hdigits hnormal, strOf_eq_bin]
  have hsupports : decaSupports p u := by
    rwa [← normalPattern_fillStorage_iff p (bitString_bin _ _), fillStorage_bin]
  have hdeca : exec (Instr.ofOp .deca p) t = .next (t.withVal (zext64 x)) := by
    rw [exec_deca_of_decaSupports (bitString_bin _ _) hsupports, fillStorage_bin]
  exact ⟨_, u, _, henca, rfl, hdeca, rfl⟩

/-- Settles O44: either decoder stores one normal pattern, and either encoder writes it in binary. -/
theorem encodeOfDecodeIsTheString : Obligations.EncodeOfDecodeIsTheString := by
  intro p dec enc s hdec henc hdigits hlen hbits hsupports
  set x := fillStorage p.width s.strIn (0#p.width)
  set t : State := { s.withVal (zext64 x) with valIn := zext64 x }
  have hnormal : normalPattern p x := (normalPattern_fillStorage_iff p hbits).mpr hsupports
  have hoperand : operand p t = x := operand_zext64 p _ x
  have hdecode : exec (Instr.ofOp dec p) s = .next (s.withVal (zext64 x)) := by
    rcases hdec with rfl | rfl
    · exact exec_decd_of_bitString p hbits
    · exact exec_deca_of_decaSupports hbits hsupports
  have hencode : exec (Instr.ofOp enc p) t = .next (t.withStr (bin p.width x.toNat)) := by
    rcases henc with rfl | rfl
    · rw [exec_encd, hoperand]
    · rw [exec_enca_exact_of_normalPattern (s := t) hdigits (by rwa [hoperand]), hoperand, strOf_eq_bin]
  rw [bin_fillStorage hlen hbits] at hencode
  exact ⟨_, _, _, hdecode, rfl, hencode, rfl⟩

end Sys2Proof.Machine

/-! The status of a transaction (spec/60_exceptions.md R91 to R97): which operands each operation
rejects, the status each command reports, and the order in which a transaction tests the conditions. -/

namespace Sys2Proof.Machine

open Sys2Proof.Stated

/-- The operands of `ENCA`'s `UNSUPPORTED`, as R95 lists them and as R76 excludes them. -/
theorem not_encaSupports_iff (p : Precision) (x : BitVec p.width) :
    ¬ encaSupports p x ↔
      (expField p x = 0 ∧ fracField p x ≠ 0) ∨ expField p x = 2 ^ p.expBits - 1 := by
  rw [encaSupports, not_and_or, Classical.not_imp, not_not]

theorem encodeFields_of_not_encaSupports (p : Precision) (digits : Nat) {x : BitVec p.width}
    (h : ¬ encaSupports p x) :
    encodeFields p digits (patternFields p x) = .error .unsupported := by
  rw [not_encaSupports_iff, expField_eq, fracField_eq] at h
  rcases h with hsub | hspecial
  · rw [encodeFields, (classify_subnormalPattern_iff p _).mpr hsub]
  · rw [encodeFields, (classify_specialPattern_iff p _).mpr hspecial]

theorem exec_enca_of_not_encaSupports {p : Precision} {s : State}
    (h : ¬ encaSupports p (operand p s)) :
    exec (Instr.ofOp .enca p) s = .next (afterStatus s 4#3) :=
  exec_enca_of_error (encodeFields_of_not_encaSupports p _ h)

/-- A supported operand is a zero or a normal pattern, and `ENCA` completes on both (R76, R84). -/
theorem exec_enca_of_encaSupports {p : Precision} {s : State}
    (h : encaSupports p (operand p s)) :
    ∃ u, exec (Instr.ofOp .enca p) s = .next (s.withStr u) := by
  obtain ⟨hzero, hspecial⟩ := h
  by_cases hexp : expField p (operand p s) = 0
  · exact ⟨_, exec_enca_of_zero hexp (hzero hexp)⟩
  · have hlt : expField p (operand p s) < 2 ^ p.expBits := Nat.mod_lt _ (by positivity)
    exact ⟨_, exec_enca_of_normalPattern (by rw [normalPattern]; omega)⟩

theorem exec_deca_of_not_decaSupports {p : Precision} {s : State} (hbits : bitString s.strIn)
    (h : ¬ decaSupports p s.strIn) :
    exec (Instr.ofOp .deca p) s = .next (afterStatus s 4#3) :=
  exec_deca_of_unsupported hbits (by rwa [decaSupports, ← not_or, not_not] at h)

/-- Each operation that reads `STR_IN` runs the alphabet check first (R64). -/
theorem exec_of_not_bitString (p : Precision) {o : Op} {s : State}
    (ho : o = .decd ∨ o = .deca ∨ o = .xtrt ∨ o = .rcon) (h : ¬ bitString s.strIn) :
    exec (Instr.ofOp o p) s = .next (afterStatus s 3#3) := by
  rcases ho with rfl | rfl | rfl | rfl
  · rw [exec_ofOp_decd, decodeDirect, withBitString_of_not_bitString h]
  · rw [exec_ofOp_deca, decodeArithmetic, withBitString_of_not_bitString h]
  · rw [exec_ofOp_xtrt, extractFields, withBitString_of_not_bitString h]
  · rw [exec_ofOp_rcon, reconstruct, withBitString_of_not_bitString h]

open Classical in
/-- The status a legal command reports: the part of R97's order that its operation can reach. -/
noncomputable def commandStatus (p : Precision) (o : Op) (s : State) : BitVec 3 :=
  match o with
  | .encd => 0#3
  | .enca => if encaSupports p (operand p s) then 0#3 else 4#3
  | .deca => if bitString s.strIn then if decaSupports p s.strIn then 0#3 else 4#3 else 3#3
  | .decd | .xtrt | .rcon => if bitString s.strIn then 0#3 else 3#3

open Classical in
/-- The branches of the operation are those of `commandStatus`, and no command is refused. -/
theorem exec_status (p : Precision) (o : Op) (s : State) :
    ∃ t, exec (Instr.ofOp o p) s = .next t ∧ t.status = some (commandStatus p o s) := by
  have hstring (ho : o = .decd ∨ o = .deca ∨ o = .xtrt ∨ o = .rcon) {c : BitVec 3}
      (hok : bitString s.strIn → ∃ t, exec (Instr.ofOp o p) s = .next t ∧ t.status = some c) :
      ∃ t, exec (Instr.ofOp o p) s = .next t ∧
        t.status = some (if bitString s.strIn then c else 3#3) := by
    split_ifs with hbits
    · exact hok hbits
    · exact ⟨_, exec_of_not_bitString p ho hbits, rfl⟩
  cases o with
  | encd => exact ⟨_, exec_encd p s, rfl⟩
  | enca =>
    rw [commandStatus]
    split_ifs with h
    · obtain ⟨u, hu⟩ := exec_enca_of_encaSupports h
      exact ⟨_, hu, rfl⟩
    · exact ⟨_, exec_enca_of_not_encaSupports h, rfl⟩
  | deca =>
    refine hstring (by simp) fun hbits => ?_
    split_ifs with h
    · exact ⟨_, exec_deca_of_decaSupports hbits h, rfl⟩
    · exact ⟨_, exec_deca_of_not_decaSupports hbits h, rfl⟩
  | decd => exact hstring (by simp) fun hbits => ⟨_, exec_decd_of_bitString p hbits, rfl⟩
  | xtrt => exact hstring (by simp) fun hbits => ⟨_, exec_xtrt_of_bitString p hbits, rfl⟩
  | rcon => exact hstring (by simp) fun hbits => ⟨_, exec_rcon_of_bitString p hbits, rfl⟩

theorem exec_status_ne {p : Precision} {o : Op} {s : State} {c : BitVec 3}
    (h : commandStatus p o s ≠ c) :
    ∃ t, exec (Instr.ofOp o p) s = .next t ∧ t.status ≠ some c := by
  obtain ⟨t, ht, hstatus⟩ := exec_status p o s
  exact ⟨t, ht, by rwa [hstatus, Ne, Option.some_inj]⟩

theorem commandStatus_ne_malformed (p : Precision) (o : Op) {s : State} (h : bitString s.strIn) :
    commandStatus p o s ≠ 3#3 := by
  cases o with
  | encd => simp [commandStatus]
  | enca | deca => simp only [commandStatus, if_pos h]; split_ifs <;> decide
  | decd | xtrt | rcon => simp [commandStatus, h]

theorem commandStatus_ne_unsupported (p : Precision) {o : Op} (s : State)
    (ho : o = .encd ∨ o = .decd ∨ o = .xtrt ∨ o = .rcon) : commandStatus p o s ≠ 4#3 := by
  rcases ho with rfl | rfl | rfl | rfl
  case inl => simp [commandStatus]
  all_goals rw [commandStatus]; split_ifs <;> decide

/-- Settles O21: the alphabet check is each operation's first test, and no later one raises
`MALFORMED`. -/
theorem stringOperationsRaiseMalformed : Obligations.StringOperationsRaiseMalformed :=
  fun p o _ ho => ⟨exec_of_not_bitString p ho, fun hbits =>
    exec_status_ne (commandStatus_ne_malformed p o hbits)⟩

/-- Settles O28: the operand domains of `ENCA` and `DECA`, and the statuses of the other four. -/
theorem unsupportedOperands : Obligations.UnsupportedOperands :=
  fun p s => ⟨fun h => exec_enca_of_not_encaSupports ((not_encaSupports_iff p _).mpr h),
    exec_deca_of_unsupported, fun _ ho => exec_status_ne (commandStatus_ne_unsupported p s ho)⟩

/-- The operation that R54 reads from a legal `OP` field has that field (R51). -/
theorem opField_getD : ∀ f : BitVec 3, ¬ (f = 6#3 ∨ f = 7#3) →
    opField ([Op.encd, .decd, .enca, .deca, .xtrt, .rcon].getD f.toNat .encd) = f := by
  decide

/-- The field values that raise `ILLEGAL` (R51, R53, R92). -/
def illegalFields (w : BitVec 8) : Prop :=
  w.extractLsb' 5 3 ≠ 0#3 ∨ w.extractLsb' 0 3 = 6#3 ∨ w.extractLsb' 0 3 = 7#3

theorem decodeCmd_of_illegalFields {w : BitVec 8} (h : illegalFields w) :
    decodeCmd w = .error .illegal := by
  rw [decoderFollowsTheDecodeRule w]
  by_cases hrsv : w.extractLsb' 5 3 ≠ 0#3
  · rw [if_pos hrsv]
  · rw [if_neg hrsv, if_pos (h.resolve_left hrsv)]

/-- A word that is not `ILLEGAL` raises `TYPE` or is a command, by its bit 4 (R54). -/
theorem decodeCmd_of_not_illegalFields {w : BitVec 8} (h : ¬ illegalFields w) :
    ∃ o, opField o = w.extractLsb' 0 3 ∧
      decodeCmd w =
        if w.getLsbD 4 = true then .error .type else .ok (Instr.ofOp o (wordPrec w)) := by
  obtain ⟨hrsv, hop⟩ := not_or.mp h
  refine ⟨_, opField_getD _ hop, ?_⟩
  rw [decoderFollowsTheDecodeRule w, if_neg hrsv, if_neg hop, wordPrec]
  cases w.getLsbD 3 <;> rfl

theorem statusRule_of_illegalFields {s : State} (h : illegalFields s.cmd) : statusRule s = 1#3 :=
  if_pos h

theorem statusRule_of_type {s : State} (h : ¬ illegalFields s.cmd)
    (htype : s.cmd.getLsbD 4 = true) : statusRule s = 2#3 :=
  (if_neg h).trans (if_pos htype)

/-- On a legal command R97's order of tests ends with the command's own status. -/
theorem statusRule_of_legal {s : State} {o : Op} (hop : opField o = s.cmd.extractLsb' 0 3)
    (h : ¬ illegalFields s.cmd) (htype : ¬ s.cmd.getLsbD 4 = true) :
    statusRule s = commandStatus (wordPrec s.cmd) o s := by
  refine (if_neg h).trans ((if_neg htype).trans ?_)
  rw [← hop]
  cases o with
  | enca =>
    by_cases h : encaSupports (wordPrec s.cmd) (operand (wordPrec s.cmd) s) <;>
      simp [opField, commandStatus, h]
  | deca =>
    by_cases hbits : bitString s.strIn <;> by_cases h : decaSupports (wordPrec s.cmd) s.strIn <;>
      simp [opField, commandStatus, hbits, h]
  | encd => simp [opField, commandStatus]
  | decd | xtrt | rcon =>
    by_cases hbits : bitString s.strIn <;> simp [opField, commandStatus, hbits]

theorem step_of_decode_ok {s : State} {i : Instr} (hfits : s.strIn.length ≤ s.config.strInMax)
    (h : decodeCmd s.cmd = .ok i) : step s = exec i s := by
  rw [step, presentable, decide_eq_true hfits, if_pos rfl, h]

theorem step_of_decode_error {s : State} {c : Status}
    (hfits : s.strIn.length ≤ s.config.strInMax) (h : decodeCmd s.cmd = .error c) :
    step s = .next (s.raised c) := by
  rw [step, presentable, decide_eq_true hfits, if_pos rfl, h]
  rfl

/-- Settles O12: the decoder's two tests in R97's order, and then the command's own status. -/
theorem statusOfEveryTransaction : Obligations.StatusOfEveryTransaction := by
  intro s hfits
  by_cases hillegal : illegalFields s.cmd
  · rw [statusRule_of_illegalFields hillegal]
    exact ⟨_, step_of_decode_error hfits (decodeCmd_of_illegalFields hillegal), rfl⟩
  obtain ⟨o, hop, hdecode⟩ := decodeCmd_of_not_illegalFields hillegal
  by_cases htype : s.cmd.getLsbD 4 = true
  · rw [if_pos htype] at hdecode
    rw [statusRule_of_type hillegal htype]
    exact ⟨_, step_of_decode_error hfits hdecode, rfl⟩
  · rw [if_neg htype] at hdecode
    rw [step_of_decode_ok hfits hdecode, statusRule_of_legal hop hillegal htype]
    exact exec_status _ o s

end Sys2Proof.Machine

/-! The statements of spec/70_reset_and_hazards.md: what a reset leaves, and what the host's copy of a
result into an input does. -/

namespace Sys2Proof.Machine

open Sys2Proof.Stated

/-- A reset leaves what a transaction without a result leaves, but for `STATUS` (R109). -/
theorem State.resetOutputs_eq_afterStatus (s : State) (c : BitVec 3) :
    s.resetOutputs = { afterStatus s c with status := none } := rfl

/-- Settles O19: a reset clears every output port, and no transaction reads one. -/
theorem resetLeavesNoOutputValue : Obligations.ResetLeavesNoOutputValue :=
  ⟨rfl, fun s => ⟨s.resetOutputs_eq_afterStatus 0#3, step_resetOutputs s⟩⟩

/-- The host reads the value of a port whose `VALID` bit is 1 (R31). -/
theorem readResult_of_valid {α : Type} {s : State} {q : ResultPort} {port : Option α} {a : α}
    (hvalid : s.valid.getLsbD q.bit = true) (hport : port = some a) :
    readResult s q port = .ok a := by
  subst hport
  exact if_pos hvalid

/-- The host's read of a port whose `VALID` bit is 0 faults, whatever the port holds (R31). -/
theorem readResult_of_not_valid {α : Type} {s : State} {q : ResultPort} (port : Option α)
    (hvalid : s.valid.getLsbD q.bit = false) : readResult s q port = .error (.noValue q) :=
  if_neg (Bool.eq_false_iff.mp hvalid)

theorem hostInputs_previousStrOut (cmd : BitVec 8) (s : State) :
    hostInputs { cmd := cmd, operand := .previousStrOut } s =
      (readStrOut s).map fun u => { cmd := cmd, valIn := s.valIn, strIn := u } := by
  rw [hostInputs]
  cases readStrOut s <;> rfl

theorem hostInputs_previousValOut (cmd : BitVec 8) (s : State) :
    hostInputs { cmd := cmd, operand := .previousValOut } s =
      (readValOut s).map fun y => { cmd := cmd, valIn := y, strIn := s.strIn } := by
  rw [hostInputs]
  cases readValOut s <;> rfl

theorem hostCommand_of_inputs {c : HostCommand} {s : State} {t : Transaction}
    (h : hostInputs c s = .ok t) : hostCommand c s = step (s.drive t) := by
  rw [hostCommand, h]

theorem hostCommand_of_inputs_error {c : HostCommand} {s : State} {r : Fault}
    (h : hostInputs c s = .error r) : hostCommand c s = .fault r := by
  rw [hostCommand, h]

/-- Settles O48: a line's copy is the host's read of the port, which `VALID` alone decides. -/
theorem hostCopiesAResultIntoAnInput : Obligations.HostCopiesAResultIntoAnInput := by
  intro s cmd
  refine ⟨fun u hvalid hport => ?_, fun y hvalid hport => ?_, fun hvalid => ?_, fun hvalid => ?_⟩
  · have hread : readStrOut s = .ok u := readResult_of_valid hvalid hport
    exact hostCommand_of_inputs (t := { cmd := cmd, valIn := s.valIn, strIn := u })
      (by rw [hostInputs_previousStrOut, hread]; rfl)
  · have hread : readValOut s = .ok y := readResult_of_valid hvalid hport
    exact hostCommand_of_inputs (t := { cmd := cmd, valIn := y, strIn := s.strIn })
      (by rw [hostInputs_previousValOut, hread]; rfl)
  · have hread : readStrOut s = .error (.noValue .strOut) := readResult_of_not_valid _ hvalid
    exact hostCommand_of_inputs_error (by rw [hostInputs_previousStrOut, hread]; rfl)
  · have hread : readValOut s = .error (.noValue .valOut) := readResult_of_not_valid _ hvalid
    exact hostCommand_of_inputs_error (by rw [hostInputs_previousValOut, hread]; rfl)

end Sys2Proof.Machine

/-! The invariant of the block (spec/10_state.md R18, R25, R29, R31; spec/60_exceptions.md R91,
R98): what each ending of a command leaves on the ports, one conjunct of `State.Inv` after the
other. -/

namespace Sys2Proof

theorem Status.code_toNat_le (c : Status) : c.code.toNat ≤ 5 := by cases c <;> decide

theorem Status.code_eq_ok_iff (c : Status) : c.code = Status.ok.code ↔ c = .ok := by
  cases c <;> decide

end Sys2Proof

namespace Sys2Proof.Machine

/-- A step that answers a state was a transaction, and ended as commands and raised statuses do. -/
theorem ends_of_step {s t : State} (h : step s = .next t) : presentable s = true ∧ Ends s t := by
  obtain ⟨-, hr⟩ | ⟨hfits, u, hu, hends⟩ := step_cases s
  · rw [hr] at h; cases h
  · rw [hu] at h; cases h; exact ⟨hfits, hends⟩

theorem Ends.validMatchesPorts {s t : State} (h : Ends s t) : t.validMatchesPorts := by
  cases h <;>
    simp [State.validMatchesPorts, validNone, validVal, validStr, validFields, validSig]

theorem Ends.status_eq_code {s t : State} (h : Ends s t) : ∃ c : Status, t.status = some c.code := by
  cases h with
  | raised c => exact ⟨c, rfl⟩
  | val | str | fields | sig => exact ⟨.ok, rfl⟩

theorem Ends.statusLegal {s t : State} (h : Ends s t) : t.statusLegal := by
  intro c hc
  obtain ⟨d, hd⟩ := h.status_eq_code
  rw [hd] at hc
  cases hc
  exact d.code_toNat_le

/-- A raised status is not `OK` and clears `VALID`; every other ending is `OK` and sets a bit. -/
theorem Ends.okMatchesValid {s t : State} (h : Ends s t) : t.okMatchesValid := by
  cases h with
  | raised c hc => simp [State.okMatchesValid, Status.code_eq_ok_iff, hc]
  | val => exact iff_of_true (show validVal ≠ validNone by decide) rfl
  | str => exact iff_of_true (show validStr ≠ validNone by decide) rfl
  | fields => exact iff_of_true (show validFields ≠ validNone by decide) rfl
  | sig => exact iff_of_true (show validSig ≠ validNone by decide) rfl

/-- The one ending that writes `STR_OUT` writes a string as long as a precision is wide. -/
theorem Ends.strOutLegal {s t : State} (h : Ends s t) : t.strOutLegal := by
  intro u hu
  cases h with
  | str p v hlen hbits =>
    cases hu
    exact ⟨by rw [hlen]; cases p <;> decide, (alphabetOk_iff u).mp hbits⟩
  | raised | val | fields | sig => cases hu

/-- The one ending that writes `SIG_OUT` writes `2^FB + F` with `F < 2^FB`. -/
theorem Ends.sigOutNormalized {s t : State} (h : Ends s t) : t.sigOutNormalized := by
  intro n hn
  cases h with
  | sig p F hF =>
    cases hn
    rw [toNat_ofNat_significand p hF]
    cases p with
    | s => exact .inl ⟨Nat.le_add_right _ _, Nat.add_lt_add_left hF _⟩
    | d => exact .inr ⟨Nat.le_add_right _ _, Nat.add_lt_add_left hF _⟩
  | raised | val | str | fields => cases hn

/-- Settles O13: an ending and the state it began from differ in the output ports alone. -/
theorem transactionWritesOnlyOutputPorts : Obligations.TransactionWritesOnlyOutputPorts := by
  intro s t h
  have hsame : t.resetOutputs = s.resetOutputs := resetOutputs_eq_of_step h
  exact ⟨(congrArg State.cmd hsame :), (congrArg State.valIn hsame :),
    (congrArg State.strIn hsame :), (congrArg State.config hsame :)⟩

/-- Settles O17: an ending meets each conjunct about the output ports, and keeps what the two
conjuncts about the string and the configuration read. -/
theorem everyStepKeepsTheInvariant : Obligations.EveryStepKeepsTheInvariant := by
  intro s t hinv h
  obtain ⟨hfits, hends⟩ := ends_of_step h
  obtain ⟨-, -, hstr, hconfig⟩ := transactionWritesOnlyOutputPorts s t h
  exact {
    validMatchesPorts := hends.validMatchesPorts
    statusLegal := hends.statusLegal
    okMatchesValid := hends.okMatchesValid
    strOutLegal := hends.strOutLegal
    sigOutNormalized := hends.sigOutNormalized
    configLegal := by rw [hconfig]; exact hinv.configLegal
    stringFits := by rw [presentable, hstr, hconfig]; exact hfits }

/-- Settles O18: no output port holds a value, and the port is longer than 64 characters. -/
theorem resetMeetsTheInvariant : Obligations.ResetMeetsTheInvariant where
  validMatchesPorts := ⟨rfl, rfl, rfl, rfl, rfl, rfl⟩
  statusLegal := nofun
  okMatchesValid := iff_of_false (not_not_intro rfl) nofun
  strOutLegal := nofun
  sigOutNormalized := nofun
  configLegal := rfl
  stringFits := rfl

end Sys2Proof.Machine

/-! What the host may do with the results of a transaction (spec/10_state.md R31, R36;
spec/00_scope.md R12): read the ports that hold a value, and feed a string back. -/

namespace Sys2Proof.Machine

open Sys2Proof.Stated

/-- Where `VALID` matches the port, a port whose bit is 1 holds a value, and the host reads it
(R31). -/
theorem readResult_of_matches {α : Type} {s : State} {q : ResultPort} {port : Option α}
    (hmatch : s.valid.getLsbD q.bit = port.isSome) (hvalid : s.valid.getLsbD q.bit = true) :
    ∃ a, port = some a ∧ readResult s q port = .ok a := by
  obtain ⟨a, ha⟩ := Option.isSome_iff_exists.mp (hmatch.symm.trans hvalid)
  exact ⟨a, ha, readResult_of_valid hvalid ha⟩

theorem readStatus_of_none {s : State} (h : s.status = none) : readStatus s = .error .noStatus := by
  rw [readStatus, h]

theorem readStatus_of_some {s : State} {c : BitVec 3} (h : s.status = some c) :
    readStatus s = .ok c := by
  rw [readStatus, h]

/-- Settles O20: the invariant's `VALID` vector matches each port, and a bit that is 0 faults the
read. -/
theorem hostReadsOnlyValidPorts : Obligations.HostReadsOnlyValidPorts := by
  intro s hinv
  obtain ⟨hval, hstr, hsign, hexp, hfrac, hsig⟩ := hinv.validMatchesPorts
  exact ⟨readResult_of_matches (q := .valOut) hval, readResult_of_matches (q := .strOut) hstr,
    readResult_of_matches (q := .signOut) hsign, readResult_of_matches (q := .expOut) hexp,
    readResult_of_matches (q := .fracOut) hfrac, readResult_of_matches (q := .sigOut) hsig,
    readResult_of_not_valid (q := .valOut) _, readResult_of_not_valid (q := .strOut) _,
    readResult_of_not_valid (q := .signOut) _, readResult_of_not_valid (q := .expOut) _,
    readResult_of_not_valid (q := .fracOut) _, readResult_of_not_valid (q := .sigOut) _,
    readStatus_of_none, fun _ => readStatus_of_some⟩

/-- Every string the port can hold starts a transaction, whatever the command (R12, R18). -/
theorem exists_step_of_fits {s : State} (h : s.strIn.length ≤ s.config.strInMax) :
    ∃ t, step s = .next t := by
  obtain ⟨hlong, -⟩ | ⟨-, t, ht, -⟩ := step_cases s
  · exact absurd h (of_decide_eq_false hlong)
  · exact ⟨t, ht⟩

/-- Settles O26: the string has at most 64 characters, and the port holds at least 64. -/
theorem encodedStringsCanBeFedBack : Obligations.EncodedStringsCanBeFedBack := by
  intro s t u hwf h hu
  have hmax : 64 ≤ s.config.strInMax := of_decide_eq_true hwf
  have hlen : u.length = 32 ∨ u.length = 64 := ((ends_of_step h).2.strOutLegal u hu).1
  have hfits : u.length ≤ s.config.strInMax := by omega
  obtain ⟨-, -, -, hconfig⟩ := transactionWritesOnlyOutputPorts s t h
  exact ⟨hfits, exists_step_of_fits (s := { t with strIn := u }) (by rw [hconfig]; exact hfits)⟩

/-- Settles O9: a step either refuses or was on a string that fits. -/
theorem stepRefusesStringLongerThanThePort : Obligations.StepRefusesStringLongerThanThePort := by
  intro s hlong
  obtain ⟨-, hr⟩ | ⟨hfits, -⟩ := step_cases s
  · exact hr
  · exact absurd (of_decide_eq_true hfits) (Nat.not_le.mpr hlong)

end Sys2Proof.Machine

/-! Both encoders (spec/10_state.md R22; spec/42_arithmetic.md R77, R80): they read no more of
`VAL_IN` than the operand, and give a zero its sign. -/

namespace Sys2Proof.Machine

open Sys2Proof.Stated

/-- An encoder does the same on every `VAL_IN` that holds its operand (R22). -/
theorem exec_encoder_of_operand_eq {p : Precision} {o : Op} {s t : State} {v : BitVec 64}
    (ho : o = .encd ∨ o = .enca) (hv : operand p { s with valIn := v } = operand p s)
    (h : exec (Instr.ofOp o p) s = .next t) :
    exec (Instr.ofOp o p) { s with valIn := v } = .next { t with valIn := v } := by
  rcases ho with rfl | rfl
  · rw [exec_encd] at h ⊢
    cases h
    rw [hv]
    rfl
  · cases hf : encodeFields p (s.config.fracDigits.count p) (patternFields p (operand p s)) with
    | ok u =>
      rw [exec_enca_of_ok hf] at h
      cases h
      rw [← hv] at hf
      exact exec_enca_of_ok hf
    | error c =>
      rw [exec_enca_of_error hf] at h
      cases h
      rw [← hv] at hf
      exact exec_enca_of_error hf

/-- Settles O27: the operand at `S` is the low half of `VAL_IN`. -/
theorem upperHalfOfValInIsIgnoredAtS : Obligations.UpperHalfOfValInIsIgnoredAtS := by
  intro o s t v ho hlow h
  have hv : operand .s { s with valIn := v } = operand .s s :=
    calc operand .s { s with valIn := v }
        = patternOperand .s v := (patternOperand_eq .s v).symm
      _ = patternOperand .s s.valIn := hlow
      _ = operand .s s := patternOperand_eq .s s.valIn
  exact exec_encoder_of_operand_eq ho hv h

/-- The string of a zero pattern is its sign followed by zeros (R80 (c)). -/
theorem strOf_of_zero (p : Precision) {x : BitVec p.width} (hexp : expField p x = 0)
    (hfrac : fracField p x = 0) :
    strOf x = (if signBit p x then Ch.one else Ch.zero) :: List.replicate (p.width - 1) Ch.zero := by
  have hfields : patternFields p x = ⟨signBit p x, expField p x, fracField p x⟩ := by
    rw [expField_eq, fracField_eq]
    rfl
  rw [strOf_eq_fieldString, hfields, hexp, hfrac, ← zeroString_eq_fieldString, zeroString_eq_cons]

/-- Settles O29: both encoders write `str_W(x)` of a zero pattern, which is its signed zero. -/
theorem encodersGiveSignedZero : Obligations.EncodersGiveSignedZero := by
  intro p o s ho hexp hfrac
  rw [← strOf_of_zero p hexp hfrac]
  rcases ho with rfl | rfl
  · exact encdWritesThePatternString p s
  · exact exec_enca_of_zero hexp hfrac

end Sys2Proof.Machine

/-! The encoder and the decoder of command words (spec/30_encoding.md R50 to R57): a word decodes to
a command exactly where it is the command's encoding. -/

namespace Sys2Proof

@[simp] theorem Instr.op_ofOp (o : Op) (p : Precision) : (Instr.ofOp o p).op = o := by
  cases o <;> cases p <;> rfl

@[simp] theorem Instr.prec_ofOp (o : Op) (p : Precision) : (Instr.ofOp o p).prec = p := by
  cases o <;> cases p <;> rfl

end Sys2Proof

namespace Sys2Proof.Machine

open Sys2Proof.Stated

/-- With bit 4 clear, bit 3 of a word is its whole `PREC` field (R52, R54). -/
theorem precField_wordPrec {w : BitVec 8} (h : w.getLsbD 4 = false) :
    precField (wordPrec w) = w.extractLsb' 3 2 := by
  have hfield : ∀ f : BitVec 2, f.getLsbD 1 = false →
      precField (if f.getLsbD 0 then .d else .s) = f := by decide
  have h4 : (w.extractLsb' 3 2).getLsbD 1 = w.getLsbD 4 := by simp
  have h3 : (w.extractLsb' 3 2).getLsbD 0 = w.getLsbD 3 := by simp
  rw [wordPrec, ← h3]
  exact hfield _ (h4.trans h)

/-- A word is `{RSV, PREC, OP}` (R50). -/
theorem word_eq_append_fields (w : BitVec 8) :
    w.extractLsb' 5 3 ++ w.extractLsb' 3 2 ++ w.extractLsb' 0 3 = w := by
  rw [BitVec.extractLsb'_append_extractLsb'_eq_extractLsb' (by rfl),
    BitVec.extractLsb'_append_extractLsb'_eq_extractLsb' (by rfl)]
  exact BitVec.extractLsb'_eq_self

/-- The decoder undoes the encoder (R54). -/
theorem decodeCmd_encode (i : Instr) : decodeCmd (encode i) = .ok i := by cases i <;> rfl

/-- The three fields of a word that decodes are those of the command it decodes to (R50, R54). -/
theorem encode_of_decodeCmd {w : BitVec 8} {i : Instr} (h : decodeCmd w = .ok i) : encode i = w := by
  have hlegal : ¬ illegalFields w := by
    intro hw
    rw [decodeCmd_of_illegalFields hw] at h
    cases h
  obtain ⟨o, hop, hdecode⟩ := decodeCmd_of_not_illegalFields hlegal
  have hrsv : w.extractLsb' 5 3 = 0#3 := not_not.mp (not_or.mp hlegal).1
  rw [hdecode] at h
  split at h
  case isTrue => cases h
  case isFalse htype =>
    cases h
    rw [encode, Instr.op_ofOp, Instr.prec_ofOp, hop,
      precField_wordPrec (Bool.eq_false_iff.mpr htype), ← hrsv, word_eq_append_fields]

/-- Settles O5: each direction is a lemma about the decoder. -/
theorem decodeEncodeAgree : Obligations.DecodeEncodeAgree :=
  fun i _ _ => ⟨decodeCmd_encode i, encode_of_decodeCmd⟩

theorem encode_of_mem_commandMap : ∀ r ∈ commandMap, encode r.2 = r.1 := by decide

theorem encode_mem_commandMap (i : Instr) : (encode i, i) ∈ commandMap := by cases i <;> decide

/-- Settles O3: the command map lists each command once, with its encoding. -/
theorem decoderIsTheCommandMap : Obligations.DecoderIsTheCommandMap := by
  intro w i
  constructor
  · intro h
    rw [← encode_of_decodeCmd h]
    exact encode_mem_commandMap i
  · intro h
    obtain rfl : encode i = w := encode_of_mem_commandMap (w, i) h
    exact decodeCmd_encode i

/-- Settles O6: each word is the encoding of its command. -/
theorem writtenOutWordsDecode : Obligations.WrittenOutWordsDecode :=
  ⟨decodeCmd_encode .encdS, decodeCmd_encode .decdD, decodeCmd_encode .encaS,
    decodeCmd_encode .decaD, decodeCmd_encode .xtrtS, decodeCmd_encode .rconD⟩

/-- Settles O7: a string that fits and a word that decodes leave `step` only `exec`. -/
theorem stepRunsTheDecodedCommand : Obligations.StepRunsTheDecodedCommand :=
  fun _ _ => step_of_decode_ok

theorem decodeCmd_of_typeWord : ∀ w ∈ typeWords, decodeCmd w = .error .type := by decide

/-- R57's `ILLEGAL` words have a reserved `OP`, or a `RSV` that is not 0. -/
theorem illegalFields_of_illegalWord {w : BitVec 8} (h : illegalWord w) : illegalFields w := by
  obtain hop | hrsv := h
  · have hfields : ∀ v ∈ [0x06#8, 0x07#8, 0x0E#8, 0x0F#8, 0x16#8, 0x17#8, 0x1E#8, 0x1F#8],
        v.extractLsb' 0 3 = 6#3 ∨ v.extractLsb' 0 3 = 7#3 := by decide
    exact .inr (hfields w hop)
  · refine .inl fun hzero => ?_
    have hquot : (w.toNat >>> 5) % 2 ^ 3 = 0 := by
      rw [← BitVec.extractLsb'_toNat, hzero]
      rfl
    rw [Nat.shiftRight_eq_div_pow] at hquot
    have hle : 32 ≤ w.toNat := hrsv
    omega

/-- Settles O8: the words of both lists, and the status the decoder names for each. -/
theorem stepRaisesOnReservedWord : Obligations.StepRaisesOnReservedWord :=
  fun s hfits => ⟨fun h => step_of_decode_error hfits (decodeCmd_of_typeWord s.cmd h), fun h =>
    step_of_decode_error hfits (decodeCmd_of_illegalFields (illegalFields_of_illegalWord h))⟩

end Sys2Proof.Machine

/-! The tables of the spec that the model computes with (spec/00_scope.md R7, R8;
spec/60_exceptions.md R91, R98). -/

namespace Sys2Proof.Machine

/-- Settles O1: each entry is computed from the two field widths. -/
theorem precisionTable : Obligations.PrecisionTable := ⟨rfl, rfl⟩

/-- Settles O10: `raise` is that one update of the state. -/
theorem raiseIsPrecise : Obligations.RaiseIsPrecise := fun _ _ => rfl

/-- Settles O11: the six codes, read off. -/
theorem statusCodes : Obligations.StatusCodes := rfl

end Sys2Proof.Machine
